-- ==== Sys2Proof/Word.lean ====
section
/-! DEFINITION. The word types of the engine (00_scope.md R3, R6): a limb register, `COUT`, `wdata` and `rdata`
are `W = 64` bits wide, a command word `CMDW = 32` bits. Bit 0 is the least significant bit. -/

namespace Sys2Proof

/-- A limb register, `COUT`, `wdata` or `rdata`: `W = 64` bits (R3). -/
abbrev Word := BitVec 64

/-- A command word: `CMDW = 32` bits (R3, R61). -/
abbrev CmdWord := BitVec 32

/-- One byte of a host buffer or one character of a host text (44_host_procedures.md R123). -/
abbrev Byte := BitVec 8

/-- The first natural number a 64-bit register cannot hold; a sum that reaches it is `E_OVF` (R103). -/
abbrev wordLimit : Nat := 2 ^ 64

end Sys2Proof
end

