-- ==== Sys2Proof/Config.lean ====
section
/-! DEFINITION. The parameters of the engine (00_scope.md R2, R3, R4): the four modes and, for each, the digit base
`b`, the digits per limb `k`, the limb count `n`, the number of table values `V`, the number of table positions `P`
and the weight base `g`. Everything here has a value in the spec; nothing is left free. -/

namespace Sys2Proof

/-- The two fixed widths of a host buffer (R123: `N ∈ {32, 64}`). -/
inductive Width where
  | w32
  | w64
  deriving DecidableEq, Repr

/-- `N`, the number of bytes of a host buffer. -/
def Width.bytes : Width → Nat
  | .w32 => 32
  | .w64 => 64

/-- `L(N)`, the maximum text length (R3, R4); the safety margin is not part of it (90_conflicts.md C4). -/
def Width.maxText : Width → Nat
  | .w32 => 44
  | .w64 => 88

/-- The four operating modes (R2, 10_state.md R16). All four codes are legal. -/
inductive Mode where
  | enc32
  | enc64
  | dec32
  | dec64
  deriving DecidableEq, Repr

/-- The 2-bit code of a mode (R2). -/
def Mode.code : Mode → BitVec 2
  | .enc32 => 0
  | .enc64 => 1
  | .dec32 => 2
  | .dec64 => 3

/-- The mode with a given 2-bit code (R2, R16). -/
def Mode.ofCode (c : BitVec 2) : Mode :=
  match c.toNat with
  | 0 => .enc32
  | 1 => .enc64
  | 2 => .dec32
  | _ => .dec64

/-- The parameters a mode fixes (R2), under the spec's own names. -/
structure Params where
  b : Nat
  k : Nat
  n : Nat
  V : Nat
  P : Nat
  g : Nat
  deriving DecidableEq, Repr

/-- The limb radix `R = b^k` (R2). -/
def Params.R (p : Params) : Nat := p.b ^ p.k

/-- The number of digits of the digit sequence, `n·k` (R2). -/
abbrev Params.digits (p : Params) : Nat := p.n * p.k

/-- The parameter row of each mode (the table of R2). -/
def Mode.params : Mode → Params
  | .enc32 => ⟨58, 5, 9, 256, 32, 256⟩
  | .enc64 => ⟨58, 5, 18, 256, 64, 256⟩
  | .dec32 => ⟨256, 4, 9, 58, 44, 58⟩
  | .dec64 => ⟨256, 4, 17, 58, 88, 58⟩

/-- `NMAX`, the number of physical limb registers (R3). -/
abbrev NMAX : Nat := 18

/-- The mode in which a host encodes a buffer of this width (44_host_procedures.md R120). -/
def Width.encMode : Width → Mode
  | .w32 => .enc32
  | .w64 => .enc64

/-- The mode in which a host decodes a text of this width (R120). -/
def Width.decMode : Width → Mode
  | .w32 => .dec32
  | .w64 => .dec64

end Sys2Proof
end

