-- ==== Sys2Proof/Syntax.lean ====
section
/-! DEFINITION. The command set (30_encoding.md R62): the nine opcodes, and `Instr`, one constructor for each row of
the opcode table. Operands are unsigned integers (R64), so they are natural numbers here; that they fit their 8-bit
fields is `Instr.wellFormed`. The 64-bit operand of WRL travels in `wdata`, not in the command word (R66), and is part
of the command as the assembly syntax writes it (R69). -/

namespace Sys2Proof

/-- The nine commands by name (R62). -/
inductive Opcode where
  | init
  | acc
  | norm
  | unpk
  | rdl
  | wrl
  | rdt
  | rds
  | rdc
  deriving DecidableEq, Repr

/-- A command with its operands, in the operand order of the assembly syntax (R69). -/
inductive Instr where
  /-- `INIT mode` (R80). -/
  | init (mode : Mode)
  /-- `ACC v, p` (R90): table value `v`, position `p`. -/
  | acc (v p : Nat)
  /-- `NORM` (R100). -/
  | norm
  /-- `UNPK j` (R110): digit index `j`. -/
  | unpk (j : Nat)
  /-- `RDL i` (R111): limb index `i`. -/
  | rdl (i : Nat)
  /-- `WRL i, data` (R112): limb index `i`, the whole of `wdata`. -/
  | wrl (i : Nat) (data : Word)
  /-- `RDT v, p, i` (R91): table value, position, limb index inside the row. -/
  | rdt (v p i : Nat)
  /-- `RDS` (R81). -/
  | rds
  /-- `RDC` (R82). -/
  | rdc
  deriving DecidableEq, Repr

/-- The opcode of a command. -/
def Instr.opcode : Instr → Opcode
  | .init _ => .init
  | .acc _ _ => .acc
  | .norm => .norm
  | .unpk _ => .unpk
  | .rdl _ => .rdl
  | .wrl _ _ => .wrl
  | .rdt _ _ _ => .rdt
  | .rds => .rds
  | .rdc => .rdc

end Sys2Proof
end

