-- ==== Sys2Proof/WellFormed.lean ====
section
/-! DEFINITION. Which commands can be written as a command word: each operand fits its field (30_encoding.md R61, R64,
R69: "An assembler rejects an operand that does not fit its field"). A value that fits the field but not the range of
the current mode is well formed; it is the run-time fault `E_IDX` (R64). A mode always fits: all four codes are legal. -/

namespace Sys2Proof

/-- An operand fits its 8-bit field (R61, R69). -/
def fitsField (x : Nat) : Bool := decide (x < 256)

/-- Every operand of the command fits its field (R69). -/
def Instr.wellFormed : Instr → Bool
  | .init _ => true
  | .acc v p => fitsField v && fitsField p
  | .norm => true
  | .unpk j => fitsField j
  | .rdl i => fitsField i
  | .wrl i _ => fitsField i
  | .rdt v p i => fitsField v && fitsField p && fitsField i
  | .rds => true
  | .rdc => true

end Sys2Proof
end

