-- ==== Sys2Proof/Decode.lean ====
section
/-! DEFINITION. The command word (30_encoding.md R61 to R65): its five fields, the opcode map of nine match and mask
pairs, the decoder, total on every 32-bit word, and the encoder, written from the same map. A word is a command, well
formed, if and only if it agrees with that command's row (R62); any other word is rejected by name and never read as
another command (R65). -/

namespace Sys2Proof

/-- Why a word is ill formed (R65). Both are `E_OPC` to the engine (60_exceptions.md R151). -/
inductive DecodeError where
  /-- `OP` is `0x0` or `0xA … 0xF`. -/
  | reservedOpcode
  /-- `OP` is one of the nine and a must-be-zero bit of its row is set. -/
  | mustBeZero
  deriving DecidableEq, Repr

/-- The five fields every command word has (R61). -/
structure Fields where
  op : BitVec 4
  z : BitVec 4
  c : BitVec 8
  b : BitVec 8
  a : BitVec 8
  deriving DecidableEq, Repr

/-- The fields of a word: `OP` 31:28, `Z` 27:24, `C` 23:16, `B` 15:8, `A` 7:0 (R61). -/
def fieldsOf (w : CmdWord) : Fields :=
  { op := w.extractLsb' 28 4
    z := w.extractLsb' 24 4
    c := w.extractLsb' 16 8
    b := w.extractLsb' 8 8
    a := w.extractLsb' 0 8 }

/-- `cmd = {OP[3:0], Z[3:0], C[7:0], B[7:0], A[7:0]}` (R61). -/
def Fields.word (f : Fields) : CmdWord := f.op ++ f.z ++ f.c ++ f.b ++ f.a

/-- One row of the opcode map (R62): a word is this command when `w & mask = pat`. -/
structure OpcodeRow where
  opcode : Opcode
  pat : CmdWord
  mask : CmdWord
  deriving DecidableEq, Repr

/-- `w & mask == match` (R62). -/
def OpcodeRow.accepts (r : OpcodeRow) (w : CmdWord) : Bool := w &&& r.mask == r.pat

/-- The row of each command (R62). -/
def Opcode.row : Opcode → OpcodeRow
  | .init => ⟨.init, 0x10000000, 0xFFFFFFFC⟩
  | .acc => ⟨.acc, 0x20000000, 0xFFFF0000⟩
  | .norm => ⟨.norm, 0x30000000, 0xFFFFFFFF⟩
  | .unpk => ⟨.unpk, 0x40000000, 0xFFFFFF00⟩
  | .rdl => ⟨.rdl, 0x50000000, 0xFFFFFF00⟩
  | .wrl => ⟨.wrl, 0x60000000, 0xFFFFFF00⟩
  | .rdt => ⟨.rdt, 0x70000000, 0xFF000000⟩
  | .rds => ⟨.rds, 0x80000000, 0xFFFFFFFF⟩
  | .rdc => ⟨.rdc, 0x90000000, 0xFFFFFFFF⟩

/-- The opcode map (R62). -/
def opcodeMap : List OpcodeRow :=
  [Opcode.init, .acc, .norm, .unpk, .rdl, .wrl, .rdt, .rds, .rdc].map Opcode.row

/-- The command whose row accepted the word, with its operands taken from their fields as they stand (R64):
`v = cmd[15:8]`, `p = j = i = cmd[7:0]`, `i = cmd[23:16]` for RDT, `mode = cmd[1:0]`; WRL's data is `wdata`. -/
def Opcode.build (o : Opcode) (w : CmdWord) (wdata : Word) : Instr :=
  let f := fieldsOf w
  match o with
  | .init => .init (Mode.ofCode (w.extractLsb' 0 2))
  | .acc => .acc f.b.toNat f.a.toNat
  | .norm => .norm
  | .unpk => .unpk f.a.toNat
  | .rdl => .rdl f.a.toNat
  | .wrl => .wrl f.a.toNat wdata
  | .rdt => .rdt f.b.toNat f.a.toNat f.c.toNat
  | .rds => .rds
  | .rdc => .rdc

/-- Which of the two ways a word that no row accepts is ill formed (R65). -/
def illFormedReason (w : CmdWord) : DecodeError :=
  let op := (fieldsOf w).op.toNat
  if op = 0 ∨ 10 ≤ op then .reservedOpcode else .mustBeZero

/-- The decoder (R62, R63, R65): the command of the row that accepts the word, or the word rejected by name. It does
not depend on `MODE` or `PHASE`, and `wdata` only supplies WRL's operand (R66). -/
def decode (w : CmdWord) (wdata : Word) : Except DecodeError Instr :=
  match opcodeMap.find? (·.accepts w) with
  | some r => .ok (r.opcode.build w wdata)
  | none => .error (illFormedReason w)

/-- The `OP` field of each command (R62). -/
def Opcode.op : Opcode → BitVec 4
  | .init => 0x1
  | .acc => 0x2
  | .norm => 0x3
  | .unpk => 0x4
  | .rdl => 0x5
  | .wrl => 0x6
  | .rdt => 0x7
  | .rds => 0x8
  | .rdc => 0x9

/-- The fields of a command; a field it does not use is zero (R61). -/
def Instr.fields (i : Instr) : Fields :=
  let f : Fields := ⟨i.opcode.op, 0, 0, 0, 0⟩
  match i with
  | .init m => { f with a := m.code.setWidth 8 }
  | .acc v p => { f with b := BitVec.ofNat 8 v, a := BitVec.ofNat 8 p }
  | .norm => f
  | .unpk j => { f with a := BitVec.ofNat 8 j }
  | .rdl i => { f with a := BitVec.ofNat 8 i }
  | .wrl i _ => { f with a := BitVec.ofNat 8 i }
  | .rdt v p i => { f with c := BitVec.ofNat 8 i, b := BitVec.ofNat 8 v, a := BitVec.ofNat 8 p }
  | .rds => f
  | .rdc => f

/-- The data word sent with a command: WRL's data, zero for the rest (R69). -/
def Instr.wdata : Instr → Word
  | .wrl _ data => data
  | .init _ | .acc _ _ | .norm | .unpk _ | .rdl _ | .rdt _ _ _ | .rds | .rdc => 0

/-- The encoder: the command word and the `wdata` of a command (R61, R62, R69). -/
def encode (i : Instr) : CmdWord × Word := (i.fields.word, i.wdata)

/-- A table-numbered instruction as the transaction the engine is sent: bits 31:0 are the command word, the bits above
them `wdata` (a table row is 32 bits, so `wdata` is then zero; log entry 15). -/
def tableRequest (nbits w : Nat) : CmdWord × Word :=
  (BitVec.ofNat 32 (w % 2 ^ nbits), BitVec.ofNat 64 (w % 2 ^ nbits / 2 ^ 32))

/-- What the decoder reads from an instruction whose bits are `w`, numbered as the opcode table numbers them. -/
def decodeTableWord (nbits w : Nat) : Option Instr :=
  match decode (tableRequest nbits w).1 (tableRequest nbits w).2 with
  | .ok i => some i
  | .error _ => none

end Sys2Proof
end

