-- ==== Sys2Proof/Machine/State.lean ====
section
/-! DEFINITION. The state of one engine instance (10_state.md R10 to R20) and its command port (30_encoding.md R60), as
plain data. `Engine` is exactly the architectural state R10 lists; `State` adds the two queues of the port, which are
the model's own (log entries 1 and 2). The four contribution tables are constants, not state (R10). -/

namespace Sys2Proof.Machine

/-- `PHASE` (R17): where the engine is in the one-way flow of a call. -/
inductive Phase where
  | idle
  | accum
  | normd
  | fault
  deriving DecidableEq, Repr

/-- The 2-bit code of a phase (R15, R17). -/
def Phase.code : Phase → BitVec 2
  | .idle => 0
  | .accum => 1
  | .normd => 2
  | .fault => 3

/-- The four fault causes of the engine (60_exceptions.md R150). -/
inductive FaultCode where
  /-- `E_OPC`: ill-formed command word (R151). -/
  | eOpc
  /-- `E_SEQ`: command not admitted in the current phase (R152). -/
  | eSeq
  /-- `E_IDX`: an operand outside its range for the current mode (R153). -/
  | eIdx
  /-- `E_OVF`: a limb sum reached `2^64` (R154). -/
  | eOvf
  deriving DecidableEq, Repr

/-- The 3-bit value of `ERR` for a cause (R15, R18). -/
def FaultCode.code : FaultCode → BitVec 3
  | .eOpc => 1
  | .eSeq => 2
  | .eIdx => 3
  | .eOvf => 4

/-- The 3-bit `ERR` field: 0 when no fault is held (R18). -/
def errCode : Option FaultCode → BitVec 3
  | none => 0
  | some c => c.code

/-- The `status` of a response (30_encoding.md R67). -/
inductive Status where
  | ok
  | eOpc
  | eSeq
  | eIdx
  | eOvf
  /-- `E_FLT`: the engine was already in FAULT and ignored the command; never stored in `ERR`. -/
  | eFlt
  deriving DecidableEq, Repr

/-- The 4-bit status code (R67); 6 to 15 are never produced. -/
def Status.code : Status → BitVec 4
  | .ok => 0
  | .eOpc => 1
  | .eSeq => 2
  | .eIdx => 3
  | .eOvf => 4
  | .eFlt => 5

/-- The response status of a fault: its cause code (R150: "both the response `status` … and the value stored in
`ERR`"). -/
def FaultCode.status : FaultCode → Status
  | .eOpc => .eOpc
  | .eSeq => .eSeq
  | .eIdx => .eIdx
  | .eOvf => .eOvf

/-- A response `(status, rdata)` (R60). -/
structure Response where
  status : Status
  rdata : Word
  deriving DecidableEq, Repr

/-- The 18 physical limb registers, index 0 least significant (R11). -/
abbrev Limbs := Vector Word NMAX

/-- The architectural state of one engine instance, exactly (R10). -/
structure Engine where
  /-- `LIMB[0 … 17]` (R11, R12). -/
  limbs : Limbs
  /-- `COUT`, the carry out of the top limb (R14). -/
  cout : Word
  /-- `MODE` (R16). -/
  mode : Mode
  /-- `PHASE` (R17). -/
  phase : Phase
  /-- `ERR` (R18): `none` is code 0. -/
  err : Option FaultCode
  deriving DecidableEq, Repr

/-- What reaches the engine from outside, one at a time: a request (R60) or the reset event (70_reset_and_hazards.md
R170). -/
inductive Input where
  | request (cmd : CmdWord) (wdata : Word)
  | reset
  deriving DecidableEq, Repr

/-- An engine instance and its command port. -/
structure State where
  /-- The architectural state (R10). -/
  engine : Engine
  /-- MODEL'S OWN (log entry 1): the external events the engine has not taken yet, oldest first (R41: issue order). -/
  pending : List Input
  /-- MODEL'S OWN (log entry 2): the responses delivered so far, oldest first (R60, R178). -/
  responses : List Response
  deriving DecidableEq, Repr

/-- Why the model would stop: never. The spec says of itself that nothing is stuck and that every command in every
state has a defined response and next state (93_implementation_defined.md part A; 70_reset_and_hazards.md R178), so
this type has no constructor. The engine's own faults E_OPC, E_SEQ, E_IDX, E_OVF are next states (60_exceptions.md
R157). -/
inductive Fault
  deriving DecidableEq, Repr

/-- Why an instruction would have no meaning in the model. -/
inductive Refusal where
  /-- Raised by an arm of `exec` whose instruction has no meaning yet, under its mnemonic. Safe: the model stops where
  the hardware goes on. No arm raises it: every command of the opcode table has its meaning. -/
  | notModelled (mnemonic : String)
  deriving DecidableEq, Repr

/-- The engine right after reset (R20): `PHASE = IDLE`, `MODE = 0`, `ERR = 0`, `COUT = 0`. The limbs are "unspecified"
there; zero is the model's value (DESIGN CHOICE, log entry 3). -/
def Engine.reset : Engine :=
  { limbs := Vector.replicate NMAX 0
    cout := 0
    mode := .enc32
    phase := .idle
    err := none }

/-- The machine right after reset: nothing issued yet and nothing answered yet. -/
def State.reset : State :=
  { engine := Engine.reset
    pending := []
    responses := [] }

end Sys2Proof.Machine
end

