-- ==== Sys2Proof/Machine/Ops.lean ====
section
/-! DEFINITION. The named operations every command is made of: reading and writing limb registers, answering, taking a
fault and leaving FAULT, the common front end of checks, reset, and the command port. A command is a function from the
engine to the engine after it and the one response (30_encoding.md R60, 20_memory.md R39). -/

namespace Sys2Proof.Machine

/-! ### Limb registers (10_state.md R11, R12) -/

/-- The register file with `f i` in register `i`. -/
def limbsOf (f : Nat → Word) : Limbs := ⟨⟨(List.range NMAX).map f⟩, by simp⟩

/-- Read of `x[i]`: register `i` as it stands; no register is hardwired (R12). Beyond the 18 registers, where no
command reads (`i < n ≤ NMAX` is checked first, R153), it is zero. -/
def Engine.limb (e : Engine) (i : Nat) : Word := e.limbs.toList.getD i 0

/-- The first `n` limbs as unsigned integers, least significant first (R6, R11). -/
def Engine.lanes (e : Engine) (n : Nat) : List Nat := (List.range n).map fun i => (e.limb i).toNat

/-- `x[i] <- w` (R12). -/
def Engine.setLimb (e : Engine) (i : Nat) (w : Word) : Engine :=
  { e with limbs := limbsOf fun j => if j = i then w else e.limb j }

/-- `for i: x[i] <- q[i]` over as many limbs as `q` has; the others keep their values. The values are below `2^64`
where it is used. -/
def Engine.setLanes (e : Engine) (q : List Nat) : Engine :=
  { e with limbs := limbsOf fun j => if j < q.length then BitVec.ofNat 64 (q.getD j 0) else e.limb j }

/-! ### Responses -/

/-- `zext_64(v)` (00_scope.md R6). -/
def zext64 (v : Nat) : Word := BitVec.ofNat 64 v

/-- `respond(OK, d)` (00_scope.md R6, R68). -/
def respondOk (d : Word) (e : Engine) : Engine × Response := (e, ⟨.ok, d⟩)

/-- `raise Fault(code)` (60_exceptions.md R157): `PHASE <- FAULT`, `ERR <- code`, respond `(code, 0)`; nothing else
changes. -/
def raiseFault (c : FaultCode) (e : Engine) : Engine × Response :=
  ({ e with phase := .fault, err := some c }, ⟨c.status, 0⟩)

/-- The answer to a command ignored in phase FAULT (60_exceptions.md R155): `(E_FLT, 0)`, nothing changes. -/
def ignoreFaulted (e : Engine) : Engine × Response := (e, ⟨.eFlt, 0⟩)

/-- The start of a call and the only exit from FAULT by a command (40_control.md R80, 60_exceptions.md R158): the mode,
all 18 limbs, `COUT` and `ERR` anew, phase ACCUM. -/
def beginCall (m : Mode) (e : Engine) : Engine :=
  { e with mode := m, limbs := limbsOf fun _ => 0, cout := 0, err := none, phase := .accum }

/-! ### The checks before a command (60_exceptions.md R156) -/

/-- Which command is admitted in which phase (the second table of 10_state.md R17). -/
def admits : Opcode → Phase → Bool
  | .init, _ => true
  | .rds, _ => true
  | .acc, .accum => true
  | .wrl, .accum => true
  | .norm, .accum => true
  | .unpk, .normd => true
  | .rdl, .accum => true
  | .rdl, .normd => true
  | .rdt, .accum => true
  | .rdt, .normd => true
  | .rdc, .accum => true
  | .rdc, .normd => true
  | .acc, .idle | .acc, .normd | .acc, .fault => false
  | .wrl, .idle | .wrl, .normd | .wrl, .fault => false
  | .norm, .idle | .norm, .normd | .norm, .fault => false
  | .unpk, .idle | .unpk, .accum | .unpk, .fault => false
  | .rdl, .idle | .rdl, .fault => false
  | .rdt, .idle | .rdt, .fault => false
  | .rdc, .idle | .rdc, .fault => false

/-- The front end of a well-formed command, steps 2, 4 and 5 of R156, in that order: phase FAULT, admission, operand
range; `body` is what comes after (steps 6 and 7). -/
def frontEnd (o : Opcode) (inRange : Engine → Bool) (body : Engine → Engine × Response) (e : Engine) :
    Engine × Response :=
  if e.phase = .fault then
    if admits o .fault then body e else ignoreFaulted e
  else if ¬ admits o e.phase then raiseFault .eSeq e
  else if ¬ inRange e then raiseFault .eIdx e
  else body e

/-- What an ill-formed word does, steps 2 and 3 of R156 (R151, R155). -/
def rejectWord (e : Engine) : Engine × Response :=
  if e.phase = .fault then ignoreFaulted e else raiseFault .eOpc e

/-! ### The command port (30_encoding.md R60) -/

/-- One transaction: the engine changes as `f` says and exactly one response is delivered (R60, R39). -/
def transact (f : Engine → Engine × Response) (s : State) : Host.Outcome State Fault Refusal :=
  .next { s with engine := (f s.engine).1, responses := s.responses ++ [(f s.engine).2] }

/-- The next external event and the state with it taken from the port; `none` when nothing has been issued (R41: in
issue order). -/
def takeInput (s : State) : Option (Input × State) :=
  match s.pending with
  | [] => none
  | x :: rest => some (x, { s with pending := rest })

/-- The reset event (70_reset_and_hazards.md R170): the engine is put in its reset state. No response is delivered; what
the host has issued and received is the host's and stays (log entry 6). -/
def resetEngine (s : State) : State := { s with engine := Engine.reset }

/-- The host issues one more event, after those already issued (R41). -/
def submit (x : Input) (s : State) : State := { s with pending := s.pending ++ [x] }

/-- A request put where the next step takes it, before everything already issued (log entry 5). -/
def placeNext (cmd : CmdWord) (wdata : Word) (s : State) : State :=
  { s with pending := .request cmd wdata :: s.pending }

end Sys2Proof.Machine
end

