-- ==== Sys2Proof/Machine/Operands.lean ====
section
/-! DEFINITION. The operands of the commands: the range each must lie in for the current mode (60_exceptions.md R153;
all comparisons unsigned) and where a digit index leads (43_digits_and_limbs.md R110). -/

namespace Sys2Proof.Machine

/-- The parameters of the current mode (10_state.md R16). -/
abbrev Engine.params (e : Engine) : Params := e.mode.params

/-- A table row `(v, p)` of the current mode exists: `v < V` and `p < P` (R153, R30). -/
def rowInRange (v p : Nat) (e : Engine) : Bool := decide (v < e.params.V) && decide (p < e.params.P)

/-- A limb index is architected in the current mode: `i < n` (R153, R11). -/
def limbInRange (i : Nat) (e : Engine) : Bool := decide (i < e.params.n)

/-- A digit index of the current mode: `j < n·k` (R153, R110). -/
def digitInRange (j : Nat) (e : Engine) : Bool := decide (j < e.params.digits)

/-- A command without operands has nothing to check (R153). -/
def anyOperands (_ : Engine) : Bool := true

/-- The limb that holds digit `j`: limb `n-1` first (R110). -/
def digitLimb (p : Params) (j : Nat) : Nat := p.n - 1 - j / p.k

/-- The exponent of digit `j` inside its limb: most significant first (R110). -/
def digitExponent (p : Params) (j : Nat) : Nat := p.k - 1 - j % p.k

/-- Digit `j`: `(x[i] div b^e) mod b` (R110). -/
def digitValue (e : Engine) (j : Nat) : Nat :=
  (e.limb (digitLimb e.params j)).toNat / e.params.b ^ digitExponent e.params j % e.params.b

end Sys2Proof.Machine
end

