-- ==== Sys2Proof/Machine/Tables.lean ====
section
/-! DEFINITION. The four read-only contribution tables (20_memory.md R31 to R36): the closed formula of their words and,
beside it, the generation algorithm the spec gives for the same words. They are constants, valid from the first command
after reset (R35), so they are functions and no part of State. -/

namespace Sys2Proof.Machine

/-- The weight of position `p`, `g^(P-1-p)`: position 0 is the most significant (R36). -/
def posWeight (m : Mode) (p : Nat) : Nat := m.params.g ^ (m.params.P - 1 - p)

/-- `T_m[v][p][i] = ((v · g^(P-1-p)) div R^i) mod R` (R32), for `v < V`, `p < P`, `i < n`. -/
def tableWord (m : Mode) (v p i : Nat) : Nat := v * posWeight m p / m.params.R ^ i % m.params.R

/-- Row `(v, p)`: its `n` limb words, least significant first (R31, R32). -/
def tableRow (m : Mode) (v p : Nat) : List Nat := (List.range m.params.n).map (tableWord m v p)

/-- One multiplication of a limb list by a small number, with carry, in radix `R`, dropping the last carry: the inner
loop of the generation algorithm (R33): `t <- w[i]·f + c; w[i] <- t mod R; c <- t div R`. -/
def scaleLimbs (R f : Nat) : Nat → List Nat → List Nat
  | _, [] => []
  | c, w :: ws => (w * f + c) % R :: scaleLimbs R f ((w * f + c) / R) ws

/-- The number 1 in `n` limbs, the start of the weight loop (R33). -/
def unitLimbs (n : Nat) : List Nat := (List.range n).map fun i => if i = 0 then 1 else 0

/-- The weight `g^e` in radix `R` after `e` rounds of the weight loop (R33). -/
def generatedWeight (m : Mode) : Nat → List Nat
  | 0 => unitLimbs m.params.n
  | e + 1 => scaleLimbs m.params.R m.params.g 0 (generatedWeight m e)

/-- Row `(v, p)` as the generation algorithm makes it: `v · Wt[p]` in radix `R`, where `Wt[p]` is the weight after
`P-1-p` rounds (R33). -/
def generatedRow (m : Mode) (v p : Nat) : List Nat :=
  scaleLimbs m.params.R v 0 (generatedWeight m (m.params.P - 1 - p))

end Sys2Proof.Machine
end

