-- ==== Sys2Proof/Machine/Accumulate.lean ====
section
/-! DEFINITION. Table-lookup accumulation: ACC and RDT (41_accumulate.md). -/

namespace Sys2Proof.Machine

/-- The lane sums `s[i] = x[i] + T_m[v][p][i]`, `i < n`, exact (R90). -/
def laneSums (v p : Nat) (e : Engine) : List Nat :=
  List.zipWith (· + ·) (e.lanes e.params.n) (tableRow e.mode v p)

/-- ACC after its checks (R90): every lane is tested before any limb is written; no carry between limbs. -/
def accumulateRow (v p : Nat) (e : Engine) : Engine × Response :=
  if (laneSums v p e).any (wordLimit ≤ ·) then raiseFault .eOvf e
  else respondOk 0 (e.setLanes (laneSums v p e))

/-- `ACC v, p` (R90). -/
def execAcc (v p : Nat) (s : State) : Host.Outcome State Fault Refusal :=
  transact (frontEnd .acc (rowInRange v p) (accumulateRow v p)) s

/-- `RDT v, p, i` (R91): one word of the current mode's table; changes nothing. -/
def execRdt (v p i : Nat) (s : State) : Host.Outcome State Fault Refusal :=
  transact (frontEnd .rdt (fun e => rowInRange v p e && limbInRange i e)
    fun e => respondOk (zext64 (tableWord e.mode v p i)) e) s

end Sys2Proof.Machine
end

