-- ==== Sys2Proof/Machine/Flags.lean ====
section
/-! DEFINITION. The derived flag `CNZ` (10_state.md R19) and the `STATUS` word RDS returns (R15). -/

namespace Sys2Proof.Machine

/-- `CNZ`: 1 when `COUT ≠ 0`, else 0; never stored (R19). -/
def Engine.cnz (e : Engine) : BitVec 1 := if e.cout = 0 then 0 else 1

/-- `STATUS = {0[55:0], CNZ, ERR[2:0], PHASE[1:0], MODE[1:0]}` (R15). -/
def Engine.statusWord (e : Engine) : Word :=
  (0 : BitVec 56) ++ e.cnz ++ errCode e.err ++ e.phase.code ++ e.mode.code

end Sys2Proof.Machine
end

