-- ==== Sys2Proof/Machine/Control.lean ====
section
/-! DEFINITION. The control and status commands INIT, RDS, RDC (40_control.md). -/

namespace Sys2Proof.Machine

/-- `INIT mode` (R80): a call begins, everything zeroed; admitted in every phase. -/
def execInit (m : Mode) (s : State) : Host.Outcome State Fault Refusal :=
  transact (frontEnd .init anyOperands fun e => respondOk 0 (beginCall m e)) s

/-- `RDS` (R81): the status word; admitted in every phase, changes nothing. -/
def execRds (s : State) : Host.Outcome State Fault Refusal :=
  transact (frontEnd .rds anyOperands fun e => respondOk e.statusWord e) s

/-- `RDC` (R82): `COUT`; changes nothing. -/
def execRdc (s : State) : Host.Outcome State Fault Refusal :=
  transact (frontEnd .rdc anyOperands fun e => respondOk e.cout e) s

end Sys2Proof.Machine
end

