-- ==== Sys2Proof/Machine/Digits.lean ====
section
/-! DEFINITION. Digit unpack and limb access: UNPK, RDL, WRL (43_digits_and_limbs.md). -/

namespace Sys2Proof.Machine

/-- `UNPK j` (R110): digit `j` of the normalised limbs; changes nothing. -/
def execUnpk (j : Nat) (s : State) : Host.Outcome State Fault Refusal :=
  transact (frontEnd .unpk (digitInRange j) fun e => respondOk (zext64 (digitValue e j)) e) s

/-- `RDL i` (R111): limb `i`; changes nothing. -/
def execRdl (i : Nat) (s : State) : Host.Outcome State Fault Refusal :=
  transact (frontEnd .rdl (limbInRange i) fun e => respondOk (e.limb i) e) s

/-- `WRL i, data` (R112): limb `i` replaced by the whole of `wdata`. -/
def execWrl (i : Nat) (data : Word) (s : State) : Host.Outcome State Fault Refusal :=
  transact (frontEnd .wrl (limbInRange i) fun e => respondOk 0 (e.setLimb i data)) s

end Sys2Proof.Machine
end

