-- ==== Sys2Proof/Machine/Normalize.lean ====
section
/-! DEFINITION. The carry pass: NORM (42_normalize.md). -/

namespace Sys2Proof.Machine

/-- The loop of NORM (R100) over the limbs still to do, with the carry into them: `t <- x + c`; a fault if `t ≥ 2^64`;
`q <- t mod R`, `c <- t div R`. It answers all the quotient limbs and the carry out of the last, or nothing when some
sum reaches `2^64`. One iteration a limb, no early exit. -/
def carryPass (R : Nat) : Nat → List Nat → Option (List Nat × Nat)
  | c, [] => some ([], c)
  | c, x :: xs =>
    if wordLimit ≤ x + c then none
    else
      match carryPass R ((x + c) / R) xs with
      | none => none
      | some (q, c') => some ((x + c) % R :: q, c')

/-- NORM after its checks (R100): the pass over limbs `0 … n-1` from carry 0; its results are committed only when no sum
overflowed. -/
def normalizeLimbs (e : Engine) : Engine × Response :=
  match carryPass e.params.R 0 (e.lanes e.params.n) with
  | none => raiseFault .eOvf e
  | some (q, c) => respondOk 0 { e.setLanes q with cout := BitVec.ofNat 64 c, phase := .normd }

/-- `NORM` (R100). -/
def execNorm (s : State) : Host.Outcome State Fault Refusal :=
  transact (frontEnd .norm anyOperands normalizeLimbs) s

end Sys2Proof.Machine
end

