-- ==== Sys2Proof/Machine/Dispatch.lean ====
section
/-! DEFINITION. The meaning of each command (30_encoding.md R62), one arm per constructor of Instr. -/

namespace Sys2Proof.Machine

def exec (i : Instr) (s : State) : Host.Outcome State Fault Refusal :=
  match i with
  | .init mode => Sys2Proof.Machine.execInit mode s
  | .acc v p => Sys2Proof.Machine.execAcc v p s
  | .norm => Sys2Proof.Machine.execNorm s
  | .unpk j => Sys2Proof.Machine.execUnpk j s
  | .rdl k => Sys2Proof.Machine.execRdl k s
  | .wrl k data => Sys2Proof.Machine.execWrl k data s
  | .rdt v p k => Sys2Proof.Machine.execRdt v p k s
  | .rds => Sys2Proof.Machine.execRds s
  | .rdc => Sys2Proof.Machine.execRdc s

end Sys2Proof.Machine
end

