-- ==== Sys2Proof/Machine/Step.lean ====
section
/-! DEFINITION. One step of the machine (00_scope.md R5, 20_memory.md R41): the engine takes the next external event, if
there is one, and handles it to completion. A request is one transaction (30_encoding.md R60), reset one atomic step
(70_reset_and_hazards.md R170); with nothing issued nothing happens, for the engine never acts on its own (R5). -/

namespace Sys2Proof.Machine

/-- One step. A well-formed command word runs its command; an ill-formed one is rejected (60_exceptions.md R156). -/
def step (s : State) : Host.Outcome State Fault Refusal :=
  match takeInput s with
  | none => .next s
  | some (.reset, t) => .next (resetEngine t)
  | some (.request cmd wdata, t) =>
    match decode cmd wdata with
    | .ok i => exec i t
    | .error _ => transact rejectWord t

/-- `s` with a table-numbered instruction as the request the very next step takes (log entry 5: commands come from the
host; this stands for the host issuing it). -/
def State.withFetchWord (s : State) (nbits w : Nat) : State :=
  placeNext (tableRequest nbits w).1 (tableRequest nbits w).2 s

end Sys2Proof.Machine
end

