-- ==== Sys2Proof/Machine/Assembly.lean ====
section
/-! DEFINITION. The assembly syntax (30_encoding.md R69, R70): one command a line, an upper-case mnemonic, operands
separated by commas, numbers decimal or hexadecimal with `0x`, modes by name or code, `;` starts a comment, `.word x`
places any 32-bit word. Spaces and tabs around operands, hexadecimal digits in either case and blank lines are accepted
(log entry 16). -/

namespace Sys2Proof.Machine

/-- Why a line is rejected. -/
inductive AsmError where
  | unknownMnemonic
  | operandCount
  | badOperand
  /-- The operand does not fit its field (R69: "An assembler rejects an operand that does not fit its field"). -/
  | operandTooWide
  deriving DecidableEq, Repr

/-- Characters that may stand around words. -/
def isBlank (c : Char) : Bool := c == ' ' || c == '\t'

/-- The text without blanks at its two ends. -/
def trimBlanks (l : List Char) : List Char := ((l.dropWhile isBlank).reverse.dropWhile isBlank).reverse

/-- The pieces of a text between commas. -/
def splitCommas : List Char → List (List Char)
  | [] => [[]]
  | c :: rest =>
    if c == ',' then [] :: splitCommas rest
    else
      match splitCommas rest with
      | [] => [[c]]
      | piece :: pieces => (c :: piece) :: pieces

/-- The value of one digit character, hexadecimal digits in either case. -/
def digitOf (c : Char) : Option Nat :=
  let x := c.toNat
  if 48 ≤ x ∧ x ≤ 57 then some (x - 48)
  else if 65 ≤ x ∧ x ≤ 70 then some (x - 55)
  else if 97 ≤ x ∧ x ≤ 102 then some (x - 87)
  else none

/-- The number written by digits in a base, onto what has been read already. -/
def digitsValue (base : Nat) : Nat → List Char → Option Nat
  | acc, [] => some acc
  | acc, c :: rest =>
    match digitOf c with
    | none => none
    | some d => if d < base then digitsValue base (acc * base + d) rest else none

/-- A number, decimal or hexadecimal with `0x` (R69). -/
def parseNumber (l : List Char) : Except AsmError Nat :=
  let v :=
    match l with
    | [] => none
    | ['0', 'x'] => none
    | '0' :: 'x' :: digits => digitsValue 16 0 digits
    | digits => digitsValue 10 0 digits
  match v with
  | some x => .ok x
  | none => .error .badOperand

/-- The mode names (R70). -/
def modeNames : List (List Char × Mode) :=
  [("ENC32".toList, .enc32), ("ENC64".toList, .enc64), ("DEC32".toList, .dec32), ("DEC64".toList, .dec64)]

/-- A mode, by name or by code (R69). -/
def parseMode (l : List Char) : Except AsmError Mode :=
  match modeNames.lookup l with
  | some m => .ok m
  | none => do
    let x ← parseNumber l
    if x < 4 then return Mode.ofCode (BitVec.ofNat 2 x) else throw .operandTooWide

/-- The mnemonics (R62, R69). -/
def mnemonics : List (List Char × Opcode) :=
  [("INIT".toList, .init), ("ACC".toList, .acc), ("NORM".toList, .norm), ("UNPK".toList, .unpk), ("RDL".toList, .rdl),
   ("WRL".toList, .wrl), ("RDT".toList, .rdt), ("RDS".toList, .rds), ("RDC".toList, .rdc)]

/-- The command of a mnemonic and its operands, in the operand order of R69. -/
def parseCommand (o : Opcode) (ops : List (List Char)) : Except AsmError Instr :=
  match o, ops with
  | .init, [m] => do return .init (← parseMode m)
  | .acc, [v, p] => do return .acc (← parseNumber v) (← parseNumber p)
  | .norm, [] => .ok .norm
  | .unpk, [j] => do return .unpk (← parseNumber j)
  | .rdl, [i] => do return .rdl (← parseNumber i)
  | .wrl, [i, data] => do
    let i ← parseNumber i
    let data ← parseNumber data
    if data < wordLimit then return .wrl i (BitVec.ofNat 64 data) else throw .operandTooWide
  | .rdt, [v, p, i] => do return .rdt (← parseNumber v) (← parseNumber p) (← parseNumber i)
  | .rds, [] => .ok .rds
  | .rdc, [] => .ok .rdc
  | _, _ => .error .operandCount

/-- What a line says. -/
inductive AsmLine where
  | blank
  | command (i : Instr)
  | word (w : CmdWord)
  deriving DecidableEq, Repr

/-- A line read: its comment dropped, its first word, its operands (R69). -/
def parseLine (line : List Char) : Except AsmError AsmLine :=
  let body := trimBlanks (line.takeWhile (· != ';'))
  let word := body.takeWhile fun c => !isBlank c
  let rest := trimBlanks (body.drop word.length)
  let ops := if rest.isEmpty then [] else (splitCommas rest).map trimBlanks
  if body.isEmpty then .ok .blank
  else if word == ".word".toList then
    match ops with
    | [x] =>
      match parseNumber x with
      | .error e => .error e
      | .ok x => if x < 2 ^ 32 then .ok (.word (BitVec.ofNat 32 x)) else .error .operandTooWide
    | _ => .error .operandCount
  else
    match mnemonics.lookup word with
    | none => .error .unknownMnemonic
    | some o =>
      match parseCommand o ops with
      | .error e => .error e
      | .ok i => if i.wellFormed then .ok (.command i) else .error .operandTooWide

/-- The request of a line: its command word and `wdata`; `wdata = 0` for commands other than WRL (R69). Nothing for a
blank line. A `.word` line is sent with `wdata = 0` too, also where its word is a WRL, a case R69 is silent on (DESIGN
CHOICE, log entry 19). -/
def assemble (line : List Char) : Except AsmError (Option (CmdWord × Word)) :=
  match parseLine line with
  | .error e => .error e
  | .ok .blank => .ok none
  | .ok (.command i) => .ok (some (encode i))
  | .ok (.word w) => .ok (some (w, 0))

end Sys2Proof.Machine
end

