-- ==== Sys2Proof/Machine/HostProcedures.lean ====
section
/-! DEFINITION. The host procedures `encode_32`, `encode_64`, `decode_32`, `decode_64` (44_host_procedures.md), the
documented use of the block. They are not executed by the block: the host counts leading zeros, maps characters, checks
lengths and overflow, and issues commands. A text is a list of bytes, one character each (R123). -/

namespace Sys2Proof.Machine

/-! ### The alphabet (R121, R122) -/

/-- The character `'1'`, which stands for digit 0 and for a leading zero byte (R121, R124). -/
def charOne : Byte := 0x31

/-- `AlphabetEncodeTable`: the 58 characters in digit order, `'1' … '9'`, `'A' … 'H'`, `'J' … 'N'`, `'P' … 'Z'`,
`'a' … 'k'`, `'m' … 'z'` (R121). -/
def alphabet : List Byte :=
  [0x31, 0x32, 0x33, 0x34, 0x35, 0x36, 0x37, 0x38, 0x39] ++
  [0x41, 0x42, 0x43, 0x44, 0x45, 0x46, 0x47, 0x48] ++
  [0x4A, 0x4B, 0x4C, 0x4D, 0x4E] ++
  [0x50, 0x51, 0x52, 0x53, 0x54, 0x55, 0x56, 0x57, 0x58, 0x59, 0x5A] ++
  [0x61, 0x62, 0x63, 0x64, 0x65, 0x66, 0x67, 0x68, 0x69, 0x6A, 0x6B] ++
  [0x6D, 0x6E, 0x6F, 0x70, 0x71, 0x72, 0x73, 0x74, 0x75, 0x76, 0x77, 0x78, 0x79, 0x7A]

/-- The character of a digit `0 … 57` (R121). -/
def digitChar (d : Nat) : Byte := alphabet.getD d 0

/-- The `INVALID` sentinel, 255 (R122). -/
abbrev invalidDigit : Nat := 255

/-- `AlphabetDecodeTable`: the digit of a byte, or `INVALID`, by the six valid ranges of R122. -/
def charDigit (c : Byte) : Nat :=
  let x := c.toNat
  if 0x31 ≤ x ∧ x ≤ 0x39 then x - 0x31
  else if 0x41 ≤ x ∧ x ≤ 0x48 then x - 0x41 + 9
  else if 0x4A ≤ x ∧ x ≤ 0x4E then x - 0x4A + 17
  else if 0x50 ≤ x ∧ x ≤ 0x5A then x - 0x50 + 22
  else if 0x61 ≤ x ∧ x ≤ 0x6B then x - 0x61 + 33
  else if 0x6D ≤ x ∧ x ≤ 0x7A then x - 0x6D + 44
  else invalidDigit

/-! ### Issuing commands -/

/-- `issue X` (44_host_procedures.md preamble): send the command, wait for the response and require `status = OK`; the
response data is its value. Nothing when the response is anything else ("a host that sees anything else has met a broken
engine or another host sharing its instance"). -/
def issue (i : Instr) (s : State) : Option (Word × State) :=
  match step (submit (.request (encode i).1 (encode i).2) s) with
  | .next t =>
    match t.responses.getLast? with
    | some r => if r.status = .ok then some (r.rdata, t) else none
    | none => none
  | .fault _ => none
  | .refused _ => none

/-- Commands issued one after another; the values of all their responses, in order. -/
def issueAll : List Instr → State → Option (List Word × State)
  | [], s => some ([], s)
  | i :: rest, s =>
    match issue i s with
    | none => none
    | some (d, t) =>
      match issueAll rest t with
      | none => none
      | some (ds, u) => some (d :: ds, u)

/-- `UNPK 0 … UNPK (n·k-1)`: every digit, most significant first. -/
def unpackAll (m : Mode) : List Instr := (List.range m.params.digits).map .unpk

/-- How many elements at the front of a list satisfy `p` (leading zero bytes, digits, characters). -/
def leadingCount {α : Type} (p : α → Bool) (l : List α) : Nat := (l.takeWhile p).length

/-! ### The encoder (R124) -/

/-- Step 2 of `encode_N`: `ACC buf[p], p` for `p = zcount … N-1`, in big-endian order. -/
def encodeRows (w : Width) (zcount : Nat) (buf : List Byte) : List Instr :=
  ((List.range w.bytes).drop zcount).map fun p => .acc (buf.getD p 0).toNat p

/-- `encode_N(buf)` (R124) for a buffer of exactly `N` bytes (R123): the text and its length, and the machine after the
call. -/
def encodeText (w : Width) (buf : List Byte) (s : State) : Option ((List Byte × Nat) × State) := do
  let zcount := leadingCount (· == 0) buf
  let (_, s) ← issue (.init w.encMode) s
  let (_, s) ← issueAll (encodeRows w zcount buf) s
  let (_, s) ← issue .norm s
  let (d, s) ← issueAll (unpackAll w.encMode) s
  let skip := leadingCount (· == 0) d
  let text := List.replicate zcount charOne ++ (d.drop skip).map fun x => digitChar x.toNat
  return ((text, zcount + w.encMode.params.digits - skip), s)

/-! ### The decoder (R126) -/

/-- The error results of `decode_N` (R127), host results and not engine faults. -/
inductive DecodeFailure where
  /-- The text is longer than `L(N)`; found before any command is issued. -/
  | tooLong
  /-- A character outside the alphabet, at this 0-based byte position of the whole text. -/
  | invalidCharacter (position : Nat)
  /-- The magnitude does not fit in `N - zcount` bytes. -/
  | overflow
  deriving DecidableEq, Repr

/-- Steps 3 and 4 of `decode_N`: the characters of the text from position `j` on, validated and accumulated in one pass;
the character at `j` goes to table position `L - len + j` (R126, 20_memory.md R36). It stops at the first invalid
character and issues nothing further. -/
def accumulateText (w : Width) (len : Nat) : Nat → List Byte → State → Option (Option DecodeFailure × State)
  | _, [], s => some (none, s)
  | j, c :: rest, s =>
    if charDigit c = invalidDigit then some (some (.invalidCharacter j), s)
    else
      match issue (.acc (charDigit c) (w.maxText - len + j)) s with
      | none => none
      | some (_, t) => accumulateText w len (j + 1) rest t

/-- Steps 5 to 7 of `decode_N`: the pass, the carry-out, the digits, the overflow test `c ≠ 0` or `mlen > N - zcount`
over the integers, and the last `N` digits as bytes. -/
def finishDecode (w : Width) (zcount : Nat) (s : State) : Option (Except DecodeFailure (List Byte) × State) := do
  let (_, s) ← issue .norm s
  let (c, s) ← issue .rdc s
  let (d, s) ← issueAll (unpackAll w.decMode) s
  let digits := w.decMode.params.digits
  let mlen := digits - leadingCount (· == 0) d
  if c ≠ 0 ∨ (mlen : Int) > (w.bytes : Int) - zcount then return (.error .overflow, s)
  else return (.ok ((d.drop (digits - w.bytes)).map fun x => x.setWidth 8), s)

/-- `decode_N(text)` (R126): the `N` bytes or the error, and the machine after the call. -/
def decodeText (w : Width) (text : List Byte) (s : State) : Option (Except DecodeFailure (List Byte) × State) :=
  if w.maxText < text.length then some (.error .tooLong, s)
  else do
    let (_, s) ← issue (.init w.decMode) s
    let zcount := leadingCount (· == charOne) text
    let (bad, s) ← accumulateText w text.length zcount (text.drop zcount) s
    match bad with
    | some f => return (.error f, s)
    | none => finishDecode w zcount s

end Sys2Proof.Machine
end

