-- ==== Sys2Proof/Machine/System.lean ====
section
/-! DEFINITION. Several engine instances (60_exceptions.md R162): each has a state and a command port of its own; the
instances share nothing but the contents of the tables, which are constants. Which instance acts next is the choice of
the hosts, not of the machine. -/

namespace Sys2Proof.Machine

/-- Any number of instances. There are no instance identifiers (R162); the place in the list only tells them apart
here. -/
structure System where
  instances : List State
  deriving DecidableEq, Repr

/-- Instance `k` takes one step; the others stand still. Where there is no instance `k` nothing happens. -/
def System.stepAt (sys : System) (k : Nat) : Host.Outcome System Fault Refusal :=
  match sys.instances[k]? with
  | none => .next sys
  | some s =>
    match step s with
    | .next t => .next ⟨sys.instances.set k t⟩
    | .fault r => .fault r
    | .refused r => .refused r

end Sys2Proof.Machine
end

