-- ==== Sys2Proof/Machine/Value.lean ====
section
/-! DEFINITION. The value of the engine state (10_state.md R23), used in claims and never computed by the machine. -/

namespace Sys2Proof.Machine

/-- `Σ_{i<n} x[i]·R^i` over the architected limbs of the current mode (R23). -/
def Engine.limbVal (e : Engine) : Nat :=
  ∑ i ∈ Finset.range e.params.n, (e.limb i).toNat * e.params.R ^ i

/-- `Val = COUT·R^n + Σ_{i<n} x[i]·R^i` (R23). -/
def Engine.val (e : Engine) : Nat := e.cout.toNat * e.params.R ^ e.params.n + e.limbVal

end Sys2Proof.Machine
end

