-- ==== Sys2Proof/Safety.lean ====
section
/-! DEFINITION. What counts as a safe run, in the words the claims use: the invariant of the engine (the facts
10_state.md says a model may rely on), and the ways a command can answer. -/

namespace Sys2Proof.Machine

/-- What every step keeps, in every state that has it. -/
structure Engine.Inv (e : Engine) : Prop where
  /-- `PHASE = FAULT` if and only if `ERR ≠ 0` (R18). -/
  err_iff : e.phase = .fault ↔ e.err ≠ none
  /-- In phase NORMD every architected limb is below `R` (R21). -/
  normd_limbs : e.phase = .normd → ∀ i < e.params.n, (e.limb i).toNat < e.params.R
  /-- In phase ACCUM `COUT = 0` (R14). -/
  accum_cout : e.phase = .accum → e.cout = 0
  /-- In phase IDLE the control state is that of reset (R16, R17, R20). -/
  idle_control : e.phase = .idle → e.mode = .enc32 ∧ e.cout = 0
  /-- Within a call the limbs beyond `n` are zero (R11; 93 U8). -/
  upper_zero : e.phase = .accum ∨ e.phase = .normd → ∀ i, e.params.n ≤ i → i < NMAX → e.limb i = 0
  /-- `COUT` never exceeds `(2^64-1) div R` (R14). -/
  cout_bound : e.cout.toNat ≤ (wordLimit - 1) / e.params.R

/-- The command answered once, with `r`, and left the port otherwise alone (R60). -/
def Answered (r : Response) (s t : State) : Prop :=
  t.responses = s.responses ++ [r] ∧ t.pending = s.pending

/-- Every register of the register file has the same value in both states. -/
def SameLimbs (s t : State) : Prop := ∀ i < NMAX, t.engine.limb i = s.engine.limb i

/-- A command that completed with data `d` and changed no architectural state (20_memory.md R39: "No read has a side
effect"). -/
def ReadOnly (d : Word) (s t : State) : Prop :=
  Answered ⟨.ok, d⟩ s t ∧ SameLimbs s t ∧ t.engine.cout = s.engine.cout ∧ t.engine.mode = s.engine.mode ∧
    t.engine.phase = s.engine.phase ∧ t.engine.err = s.engine.err

/-- A command that faulted with cause `c` (60_exceptions.md R157): `PHASE <- FAULT`, `ERR <- c`, the response is
`(c, 0)`, and nothing else changed. -/
def Faulted (c : FaultCode) (s t : State) : Prop :=
  t.engine.phase = .fault ∧ t.engine.err = some c ∧ Answered ⟨c.status, 0⟩ s t ∧
    SameLimbs s t ∧ t.engine.cout = s.engine.cout ∧ t.engine.mode = s.engine.mode

/-- A command ignored in phase FAULT (60_exceptions.md R155): answered `(E_FLT, 0)`, nothing changed. -/
def Ignored (s t : State) : Prop :=
  Answered ⟨.eFlt, 0⟩ s t ∧ SameLimbs s t ∧ t.engine.cout = s.engine.cout ∧ t.engine.mode = s.engine.mode ∧
    t.engine.phase = s.engine.phase ∧ t.engine.err = s.engine.err

end Sys2Proof.Machine
end

