-- ==== Sys2Proof/Certificates/Slice0/Obligations.lean ====
section
/-! DEFINITION. The statements about the engine, from the numbered rules of spec/. Each docstring names the rule it
formalises; where a statement rests on a choice of the model it says so and names the log entry. -/

open Sys2Proof Sys2Proof.Machine

namespace Sys2Proof.Claims

/-! ### Words the statements use, written from the rules and not from the model's own functions -/

/-- The table word `T_m[v][p][i]` as R32 writes it. -/
def word (m : Mode) (v p i : Nat) : Nat :=
  v * m.params.g ^ (m.params.P - 1 - p) / m.params.R ^ i % m.params.R

/-- Limb `i` as a natural number. -/
abbrev x (s : State) (i : Nat) : Nat := (s.engine.limb i).toNat

/-- The architected limb count of the current mode. -/
abbrev n (s : State) : Nat := s.engine.mode.params.n

/-- The limb radix of the current mode. -/
abbrev R (s : State) : Nat := s.engine.mode.params.R

/-- The limbs no command of the current mode reaches are as before (R11). -/
def UpperLimbsKept (s t : State) : Prop := ∀ i, n s ≤ i → i < NMAX → t.engine.limb i = s.engine.limb i

/-- `s` with its next event taken and `rest` still to come. -/
abbrev taken (s : State) (rest : List Input) : State := { s with pending := rest }

/-- The command ends in fault `c` in every state of phase `p`, or in the answer `E_FLT` in phase FAULT. -/
def Refuses (i : Instr) (s : State) : Prop :=
  ∃ t, exec i s = .next t ∧ (if s.engine.phase = .fault then Ignored s t else Faulted .eSeq s t)

/-- A word is ill formed, bit by bit (R65): a reserved `OP`, or a must-be-zero bit of its command set. -/
def IllFormed (w : CmdWord) : Prop :=
  let op := (w.extractLsb' 28 4).toNat
  op = 0 ∨ 10 ≤ op ∨ (op = 1 ∧ w.extractLsb' 2 26 ≠ 0) ∨ (op = 2 ∧ w.extractLsb' 16 12 ≠ 0) ∨
    ((op = 3 ∨ op = 8 ∨ op = 9) ∧ w.extractLsb' 0 28 ≠ 0) ∨
    ((op = 4 ∨ op = 5 ∨ op = 6) ∧ w.extractLsb' 8 20 ≠ 0) ∨ (op = 7 ∧ w.extractLsb' 24 4 ≠ 0)

/-- The engine's answer to an ill-formed word: `E_OPC`, or `E_FLT` in phase FAULT (R65, R151, R155). -/
def Rejects (w : CmdWord) : Prop :=
  ∀ wd rest s, s.pending = .request w wd :: rest →
    ∃ t, step s = .next t ∧
      (if s.engine.phase = .fault then Ignored (taken s rest) t else Faulted .eOpc (taken s rest) t)

/-- The admission table of R17, row by row. -/
def Admitted (i : Instr) (p : Phase) : Prop :=
  match i with
  | .init _ => True
  | .rds => True
  | .acc _ _ => p = .accum
  | .wrl _ _ => p = .accum
  | .norm => p = .accum
  | .unpk _ => p = .normd
  | .rdl _ => p = .accum ∨ p = .normd
  | .rdt _ _ _ => p = .accum ∨ p = .normd
  | .rdc => p = .accum ∨ p = .normd

/-- The ranges of R153, for the current mode. -/
def InRange (i : Instr) (m : Mode) : Prop :=
  match i with
  | .acc v p => v < m.params.V ∧ p < m.params.P
  | .rdt v p i => v < m.params.V ∧ p < m.params.P ∧ i < m.params.n
  | .rdl i => i < m.params.n
  | .wrl i _ => i < m.params.n
  | .unpk j => j < m.params.n * m.params.k
  | .init _ => True
  | .norm => True
  | .rds => True
  | .rdc => True

/-- The carry into limb `i` of a NORM, `c_{i+1} = (x[i] + c_i) div R` from `c_0 = 0` (R100). -/
def carry (s : State) : Nat → Nat
  | 0 => 0
  | i + 1 => (x s i + carry s i) / R s

/-- A limb sum of the command reaches `2^64` (R154). -/
def Overflows (i : Instr) (s : State) : Prop :=
  match i with
  | .acc v p => ∃ i < n s, 2 ^ 64 ≤ x s i + word s.engine.mode v p i
  | .norm => ∃ i < n s, 2 ^ 64 ≤ x s i + carry s i
  | .init _ | .unpk _ | .rdl _ | .wrl _ _ | .rdt _ _ _ | .rds | .rdc => False

/-- The outcome R156 gives a well-formed command: the first check that fails decides, and when none does the command
completes. -/
def FirstFailure (i : Instr) (s t : State) : Prop :=
  (s.engine.phase = .fault ∧ ¬ Admitted i .fault ∧ Ignored s t) ∨
  (s.engine.phase ≠ .fault ∧ ¬ Admitted i s.engine.phase ∧ Faulted .eSeq s t) ∨
  (Admitted i s.engine.phase ∧ ¬ InRange i s.engine.mode ∧ Faulted .eIdx s t) ∨
  (Admitted i s.engine.phase ∧ InRange i s.engine.mode ∧ Overflows i s ∧ Faulted .eOvf s t) ∨
  (Admitted i s.engine.phase ∧ InRange i s.engine.mode ∧ ¬ Overflows i s ∧ ∃ d, Answered ⟨.ok, d⟩ s t)

/-- Two machines that differ at most in limb values nothing may show: the same port, the same control state, and the
same limbs unless the phase is IDLE or FAULT (R20, R159). -/
def LimbsHidden (s t : State) : Prop :=
  s.pending = t.pending ∧ s.responses = t.responses ∧ s.engine.mode = t.engine.mode ∧
    s.engine.phase = t.engine.phase ∧ s.engine.err = t.engine.err ∧ s.engine.cout = t.engine.cout ∧
    (s.engine.phase = .accum ∨ s.engine.phase = .normd → SameLimbs s t)

/-- The leading zero bytes of a buffer, or zero digits of a sequence. -/
def zeros (buf : List Byte) : Nat := (buf.takeWhile (· == 0)).length

/-- The leading `'1'` characters of a text. -/
def ones (text : List Byte) : Nat := (text.takeWhile (· == 0x31)).length

/-- The number a big-endian buffer stands for (R123). -/
def magnitude (buf : List Byte) : Nat := Nat.ofDigits 256 (buf.reverse.map BitVec.toNat)

/-- The ordinary Base58 text of a buffer: a `'1'` for each leading zero byte, then the base-58 expansion of the
magnitude, most significant digit first, through the alphabet (R124, R125). -/
def base58 (buf : List Byte) : List Byte :=
  List.replicate (zeros buf) 0x31 ++ (Nat.digits 58 (magnitude buf)).reverse.map digitChar

/-- The number the digits of a text stand for (R126 steps 3 and 4). -/
def textValue (text : List Byte) : Nat := Nat.ofDigits 58 (text.reverse.map charDigit)

/-- The `N` bytes of a number, most significant first. -/
def bytesOf (count value : Nat) : List Byte :=
  (List.range count).map fun j => BitVec.ofNat 8 (value / 256 ^ (count - 1 - j))

/-- The result R126 gives a text: too long first; then the first character outside the alphabet; then overflow of
`N - zcount` bytes; else the `N` bytes of the value. -/
def Decodes (w : Width) (text : List Byte) (r : Except DecodeFailure (List Byte)) : Prop :=
  (w.maxText < text.length ∧ r = .error .tooLong) ∨
  (text.length ≤ w.maxText ∧
    ∃ j < text.length, (∀ i < j, charDigit (text.getD i 0) ≠ 255) ∧ charDigit (text.getD j 0) = 255 ∧
      r = .error (.invalidCharacter j)) ∨
  (text.length ≤ w.maxText ∧ (∀ c ∈ text, charDigit c ≠ 255) ∧
    ¬ (ones text ≤ w.bytes ∧ textValue text < 256 ^ (w.bytes - ones text)) ∧ r = .error .overflow) ∨
  (text.length ≤ w.maxText ∧ (∀ c ∈ text, charDigit c ≠ 255) ∧ ones text ≤ w.bytes ∧
    textValue text < 256 ^ (w.bytes - ones text) ∧ r = .ok (bytesOf w.bytes (textValue text)))

end Sys2Proof.Claims

open Sys2Proof.Claims

/-! ### Parameters -/

/-- R2: the parameter table, the codes, and that `n` is in every mode the least limb count with `R^n > g^P - 1`. -/
def Obligations.ModeParametersAreTheTable : Prop :=
  Mode.enc32.params = ⟨58, 5, 9, 256, 32, 256⟩ ∧ Mode.enc64.params = ⟨58, 5, 18, 256, 64, 256⟩ ∧
  Mode.dec32.params = ⟨256, 4, 9, 58, 44, 58⟩ ∧ Mode.dec64.params = ⟨256, 4, 17, 58, 88, 58⟩ ∧
  Mode.enc32.params.R = 656356768 ∧ Mode.enc64.params.R = 656356768 ∧
  Mode.dec32.params.R = 4294967296 ∧ Mode.dec64.params.R = 4294967296 ∧
  (Mode.enc32.params.digits = 45 ∧ Mode.enc64.params.digits = 90 ∧ Mode.dec32.params.digits = 36 ∧
    Mode.dec64.params.digits = 68) ∧
  (Mode.enc32.code = 0 ∧ Mode.enc64.code = 1 ∧ Mode.dec32.code = 2 ∧ Mode.dec64.code = 3) ∧
  ∀ m : Mode, IsLeast { c | m.params.g ^ m.params.P - 1 < m.params.R ^ c } m.params.n

/-- R4: `L(N) = ceil(N · log(256) / log(58))`, 44 and 88, the position counts of the decode tables. -/
def Obligations.MaxTextLengthIsTheCeiling : Prop :=
  (∀ w : Width, ⌈(w.bytes : ℝ) * Real.log 256 / Real.log 58⌉₊ = w.maxText) ∧
  Width.w32.maxText = 44 ∧ Width.w64.maxText = 88 ∧ ∀ w : Width, w.decMode.params.P = w.maxText

/-! ### Reset -/

/-- R20: the reset values, that RDS then answers 0, and that the limbs, which R20 leaves unspecified, are unobservable:
two machines that differ only in the limbs while those are hidden answer alike at every step and stay so. (That the model
resets the limbs to zero is its own choice, log entry 3; the second clause holds whatever they are.) -/
def Obligations.ResetValuesAndUnobservableLimbs : Prop :=
  (State.reset.engine.phase = .idle ∧ State.reset.engine.mode.code = 0 ∧ errCode State.reset.engine.err = 0 ∧
    State.reset.engine.cout = 0 ∧ State.reset.engine.cnz = 0 ∧
    ∃ t, exec .rds State.reset = .next t ∧ t.responses = [⟨.ok, 0x0000000000000000⟩]) ∧
  ∀ s t, LimbsHidden s t → ∃ s' t', step s = .next s' ∧ step t = .next t' ∧ LimbsHidden s' t'

/-- The reset event (70_reset_and_hazards.md section 1): one atomic step to the reset control state, in any phase, with no
response; events still pending are taken after it. (Limbs zero and the port untouched are the model's choices, log entries
3 and 6.) -/
def Obligations.ResetEventIsOneStep : Prop :=
  ∀ s rest, s.pending = .reset :: rest →
    ∃ t, step s = .next t ∧ t.engine.phase = .idle ∧ t.engine.mode = .enc32 ∧ t.engine.err = none ∧
      t.engine.cout = 0 ∧ t.pending = rest ∧ t.responses = s.responses

/-! ### The commands, each with every outcome its rule gives it -/

/-- R80, INIT: its word; in every phase it begins a call; no other command leaves FAULT, or leaves IDLE but by a fault; an
ill-formed INIT word; two INITs are the second alone. -/
def Obligations.InitBeginsACall : Prop :=
  (∀ (m : Mode) wd, decode (0x10000000#32 ||| m.code.setWidth 32) wd = .ok (.init m)) ∧
  (∀ m s, ∃ t, exec (.init m) s = .next t ∧ Answered ⟨.ok, 0⟩ s t ∧ t.engine.mode = m ∧
    (∀ i < NMAX, t.engine.limb i = 0) ∧ t.engine.cout = 0 ∧ t.engine.cnz = 0 ∧ t.engine.err = none ∧
    t.engine.phase = .accum ∧ t.engine.val = 0) ∧
  (∀ i s t, i.opcode ≠ .init → exec i s = .next t → (s.engine.phase = .fault → t.engine.phase = .fault) ∧
    (s.engine.phase = .idle → t.engine.phase = .idle ∨ t.engine.phase = .fault)) ∧
  (∀ w : CmdWord, w.extractLsb' 28 4 = 1 → w.extractLsb' 2 26 ≠ 0 → Rejects w) ∧
  (∀ m m' s t u v, exec (.init m) s = .next t → exec (.init m') t = .next u → exec (.init m') s = .next v →
    u.engine = v.engine)

/-- R81, RDS: its word; in every phase it answers `zext({CNZ, ERR, PHASE, MODE})` and changes nothing; an ill-formed RDS
word. -/
def Obligations.RdsReadsStatus : Prop :=
  (∀ wd, decode 0x80000000 wd = .ok .rds) ∧
  (∀ s, ∃ t d, exec .rds s = .next t ∧ ReadOnly d s t ∧
    d.toNat = s.engine.mode.code.toNat + 4 * s.engine.phase.code.toNat + 16 * (errCode s.engine.err).toNat +
      128 * (if s.engine.cout = 0 then 0 else 1)) ∧
  (∀ w : CmdWord, w.extractLsb' 28 4 = 8 → w.extractLsb' 0 28 ≠ 0 → Rejects w)

/-- R82, RDC: its word; in ACCUM and NORMD it answers `COUT` and changes nothing; 0 in ACCUM (under the invariant that rules
out the ACCUM states no run reaches), and 0 after a NORM of a value below `R^n`; `E_SEQ` in IDLE, `E_FLT` in FAULT; an
ill-formed RDC word. -/
def Obligations.RdcReadsCarryOut : Prop :=
  (∀ wd, decode 0x90000000 wd = .ok .rdc) ∧
  (∀ s, s.engine.phase = .accum ∨ s.engine.phase = .normd →
    ∃ t, exec .rdc s = .next t ∧ ReadOnly s.engine.cout s t) ∧
  (∀ s, s.engine.Inv → s.engine.phase = .accum → ∃ t, exec .rdc s = .next t ∧ ReadOnly 0 s t) ∧
  (∀ s t r, s.engine.phase = .accum → s.engine.limbVal < R s ^ n s → exec .norm s = .next t → Answered r s t →
    r.status = .ok → ∃ u, exec .rdc t = .next u ∧ ReadOnly 0 t u) ∧
  (∀ s, s.engine.phase = .idle ∨ s.engine.phase = .fault → Refuses .rdc s) ∧
  (∀ w : CmdWord, w.extractLsb' 28 4 = 9 → w.extractLsb' 0 28 ≠ 0 → Rejects w)

/-- R90, ACC: its word; the lane sums without carry, everything else kept, `Val` up by `v · g^(P-1-p)`; `E_IDX` before
`E_OVF`; no limb written by a fault; `E_SEQ` in IDLE and NORMD, `E_FLT` in FAULT. -/
def Obligations.AccAddsOneTableRow : Prop :=
  (∀ v p wd, v < 256 → p < 256 → decode (0x20000000#32 ||| BitVec.ofNat 32 v <<< 8 ||| BitVec.ofNat 32 p) wd =
    .ok (.acc v p)) ∧
  (∀ v p s, s.engine.phase = .accum → v < s.engine.mode.params.V → p < s.engine.mode.params.P →
    (∀ i < n s, x s i + word s.engine.mode v p i < 2 ^ 64) →
    ∃ t, exec (.acc v p) s = .next t ∧ Answered ⟨.ok, 0⟩ s t ∧
      (∀ i < n s, x t i = x s i + word s.engine.mode v p i) ∧ UpperLimbsKept s t ∧
      t.engine.cout = s.engine.cout ∧ t.engine.mode = s.engine.mode ∧ t.engine.phase = s.engine.phase ∧
      t.engine.err = s.engine.err ∧
      t.engine.val = s.engine.val + v * s.engine.mode.params.g ^ (s.engine.mode.params.P - 1 - p)) ∧
  (∀ v p s, s.engine.phase = .accum → s.engine.mode.params.V ≤ v ∨ s.engine.mode.params.P ≤ p →
    ∃ t, exec (.acc v p) s = .next t ∧ Faulted .eIdx s t) ∧
  (∀ v p s, s.engine.phase = .accum → v < s.engine.mode.params.V → p < s.engine.mode.params.P →
    (∃ i < n s, 2 ^ 64 ≤ x s i + word s.engine.mode v p i) →
    ∃ t, exec (.acc v p) s = .next t ∧ Faulted .eOvf s t) ∧
  (∀ v p s, s.engine.phase ≠ .accum → Refuses (.acc v p) s)

/-- R91, RDT: its word; in ACCUM and NORMD it answers the table word, which is below `R`, and changes nothing; `E_IDX`;
`E_SEQ` in IDLE, `E_FLT` in FAULT. -/
def Obligations.RdtReadsOneTableWord : Prop :=
  (∀ v p i wd, v < 256 → p < 256 → i < 256 →
    decode (0x70000000#32 ||| BitVec.ofNat 32 i <<< 16 ||| BitVec.ofNat 32 v <<< 8 ||| BitVec.ofNat 32 p) wd =
    .ok (.rdt v p i)) ∧
  (∀ v p i s, s.engine.phase = .accum ∨ s.engine.phase = .normd → v < s.engine.mode.params.V →
    p < s.engine.mode.params.P → i < n s →
    ∃ t d, exec (.rdt v p i) s = .next t ∧ ReadOnly d s t ∧ d.toNat = word s.engine.mode v p i ∧ d.toNat < R s) ∧
  (∀ v p i s, s.engine.phase = .accum ∨ s.engine.phase = .normd →
    s.engine.mode.params.V ≤ v ∨ s.engine.mode.params.P ≤ p ∨ n s ≤ i →
    ∃ t, exec (.rdt v p i) s = .next t ∧ Faulted .eIdx s t) ∧
  (∀ v p i s, s.engine.phase = .idle ∨ s.engine.phase = .fault → Refuses (.rdt v p i) s)

/-- R100, NORM: its word; limb `i` becomes `(x[i] + c_i) mod R`, `COUT` the last carry, `PHASE` NORMD, the limbs beyond
`n` and `MODE` kept; `E_OVF` when some `x[i] + c_i` reaches `2^64`; `E_SEQ` in IDLE and NORMD, `E_FLT` in FAULT. -/
def Obligations.NormMakesOneCarryPass : Prop :=
  (∀ wd, decode 0x30000000 wd = .ok .norm) ∧
  (∀ s, s.engine.phase = .accum → (∀ i < n s, x s i + carry s i < 2 ^ 64) →
    ∃ t, exec .norm s = .next t ∧ Answered ⟨.ok, 0⟩ s t ∧ (∀ i < n s, x t i = (x s i + carry s i) % R s) ∧
      UpperLimbsKept s t ∧ t.engine.cout.toNat = carry s (n s) ∧ t.engine.phase = .normd ∧
      (t.engine.cnz = 1 ↔ carry s (n s) ≠ 0) ∧
      t.engine.mode = s.engine.mode ∧ t.engine.err = s.engine.err) ∧
  (∀ s, s.engine.phase = .accum → (∃ i < n s, 2 ^ 64 ≤ x s i + carry s i) →
    ∃ t, exec .norm s = .next t ∧ Faulted .eOvf s t) ∧
  (∀ s, s.engine.phase ≠ .accum → Refuses .norm s)

/-- R110, UNPK: its word; in NORMD it answers digit `e = k-1-(j mod k)` of limb `n-1-(j div k)` and changes nothing;
`E_IDX` when `j ≥ n·k`; `E_SEQ` in IDLE and ACCUM, `E_FLT` in FAULT; when the limbs are below `R` their digits represent
them; in the decode modes the digit is a byte slice. -/
def Obligations.UnpkReadsOneDigit : Prop :=
  (∀ j wd, j < 256 → decode (0x40000000#32 ||| BitVec.ofNat 32 j) wd = .ok (.unpk j)) ∧
  (∀ j s, s.engine.phase = .normd → j < n s * s.engine.mode.params.k →
    ∃ t d, exec (.unpk j) s = .next t ∧ ReadOnly d s t ∧
      d.toNat = x s (n s - 1 - j / s.engine.mode.params.k) /
        s.engine.mode.params.b ^ (s.engine.mode.params.k - 1 - j % s.engine.mode.params.k) %
        s.engine.mode.params.b ∧
      (s.engine.mode = .dec32 ∨ s.engine.mode = .dec64 →
        d = ((s.engine.limb (n s - 1 - j / 4)).extractLsb' (8 * (3 - j % 4)) 8).setWidth 64)) ∧
  (∀ j s, s.engine.phase = .normd → n s * s.engine.mode.params.k ≤ j →
    ∃ t, exec (.unpk j) s = .next t ∧ Faulted .eIdx s t) ∧
  (∀ j s, s.engine.phase ≠ .normd → Refuses (.unpk j) s) ∧
  (∀ (m : Mode) (l : Nat), l < m.params.R →
    l = ∑ e ∈ Finset.range m.params.k, l / m.params.b ^ e % m.params.b * m.params.b ^ e)

/-- R111, RDL: its word; in ACCUM and NORMD it answers limb `i` and changes nothing; `E_IDX` when `i ≥ n`; `E_SEQ` in
IDLE, `E_FLT` in FAULT. -/
def Obligations.RdlReadsOneLimb : Prop :=
  (∀ i wd, i < 256 → decode (0x50000000#32 ||| BitVec.ofNat 32 i) wd = .ok (.rdl i)) ∧
  (∀ i s, s.engine.phase = .accum ∨ s.engine.phase = .normd → i < n s →
    ∃ t, exec (.rdl i) s = .next t ∧ ReadOnly (s.engine.limb i) s t) ∧
  (∀ i s, s.engine.phase = .accum ∨ s.engine.phase = .normd → n s ≤ i →
    ∃ t, exec (.rdl i) s = .next t ∧ Faulted .eIdx s t) ∧
  (∀ i s, s.engine.phase = .idle ∨ s.engine.phase = .fault → Refuses (.rdl i) s)

/-- R112, WRL: its word, with the whole of `wdata`; in ACCUM limb `i` becomes `wdata`, any value, and nothing else
changes; `E_IDX` when `i ≥ n`; `E_SEQ` in IDLE and NORMD, `E_FLT` in FAULT. -/
def Obligations.WrlReplacesOneLimb : Prop :=
  (∀ i wd, i < 256 → decode (0x60000000#32 ||| BitVec.ofNat 32 i) wd = .ok (.wrl i wd)) ∧
  (∀ i data s, s.engine.phase = .accum → i < n s →
    ∃ t, exec (.wrl i data) s = .next t ∧ Answered ⟨.ok, 0⟩ s t ∧ t.engine.limb i = data ∧
      (∀ j < NMAX, j ≠ i → t.engine.limb j = s.engine.limb j) ∧ t.engine.cout = s.engine.cout ∧
      t.engine.mode = s.engine.mode ∧ t.engine.phase = s.engine.phase ∧ t.engine.err = s.engine.err) ∧
  (∀ i data s, s.engine.phase = .accum → n s ≤ i → ∃ t, exec (.wrl i data) s = .next t ∧ Faulted .eIdx s t) ∧
  (∀ i data s, s.engine.phase ≠ .accum → Refuses (.wrl i data) s)

/-! ### Encoding -/

/-- R62: a word is a command, well formed, if and only if it agrees with that command's match under its mask, and its
operands are its fields as they stand. -/
def Obligations.DecodeFollowsTheOpcodeMap : Prop :=
  ∀ (w : CmdWord) (wd : Word) (i : Instr), decode w wd = .ok i ↔
    (w &&& 0xFFFFFFFC = 0x10000000 ∧ ∃ m : Mode, m.code = w.extractLsb' 0 2 ∧ i = .init m) ∨
    (w &&& 0xFFFF0000 = 0x20000000 ∧ i = .acc (w.extractLsb' 8 8).toNat (w.extractLsb' 0 8).toNat) ∨
    (w &&& 0xFFFFFFFF = 0x30000000 ∧ i = .norm) ∨
    (w &&& 0xFFFFFF00 = 0x40000000 ∧ i = .unpk (w.extractLsb' 0 8).toNat) ∨
    (w &&& 0xFFFFFF00 = 0x50000000 ∧ i = .rdl (w.extractLsb' 0 8).toNat) ∨
    (w &&& 0xFFFFFF00 = 0x60000000 ∧ i = .wrl (w.extractLsb' 0 8).toNat wd) ∨
    (w &&& 0xFF000000 = 0x70000000 ∧
      i = .rdt (w.extractLsb' 8 8).toNat (w.extractLsb' 0 8).toNat (w.extractLsb' 16 8).toNat) ∨
    (w &&& 0xFFFFFFFF = 0x80000000 ∧ i = .rds) ∨
    (w &&& 0xFFFFFFFF = 0x90000000 ∧ i = .rdc)

/-- Decode and encode agree (30_encoding.md sections 1 to 3): for every well-formed command, decoding its word with its
data gives the command back. -/
def Obligations.DecodeOfEncodeIsIdentity : Prop :=
  ∀ i : Instr, i.wellFormed = true → decode (encode i).1 (encode i).2 = .ok i

/-- The other direction (30_encoding.md sections 1 to 3, 5): a word that decodes is the word of the command it decodes to,
that command is well formed, and its data is the `wdata` sent for WRL and 0 for every other command; so each well-formed
word has one meaning and no bit of it or of WRL's data is dropped. -/
def Obligations.EncodeOfDecodeIsIdentity : Prop :=
  ∀ w wd i, decode w wd = .ok i → i.wellFormed = true ∧ (encode i).1 = w ∧
    (i.opcode = .wrl → (encode i).2 = wd) ∧ (i.opcode ≠ .wrl → (encode i).2 = 0)

/-- The example words of R69 and the ill-formed words of R65, decoded. -/
def Obligations.ExampleWordsDecode : Prop :=
  decode 0x10000002 0 = .ok (.init .dec32) ∧ decode 0x2000121E 0 = .ok (.acc 0x12 30) ∧
  decode 0x30000000 0 = .ok .norm ∧ decode 0x4000002C 0 = .ok (.unpk 44) ∧ decode 0x50000008 0 = .ok (.rdl 8) ∧
  decode 0x60000010 0xFFFFFFFFFFFFFFFF = .ok (.wrl 16 0xFFFFFFFFFFFFFFFF) ∧
  decode 0x70103900 0 = .ok (.rdt 57 0 16) ∧ decode 0x80000000 0 = .ok .rds ∧ decode 0x90000000 0 = .ok .rdc ∧
  decode 0x00000000 0 = .error .reservedOpcode ∧ decode 0xFFFFFFFF 0 = .error .reservedOpcode

/-- The count of 30_encoding.md section 5: of the `2^32` words, 16,843,527 are well formed. -/
def Obligations.WellFormedWordCount : Prop :=
  Nat.card { w : CmdWord // ∃ i, decode w 0 = .ok i } = 16843527

/-! ### One step -/

/-- A step on a pending request whose word decodes runs exactly that command, with the request taken from the port; a word
that does not decode is rejected; `withFetchWord` places such a request (R60, R41; the port is the model's, log entries 1
and 5). -/
def Obligations.StepRunsTheDecodedCommand : Prop :=
  (∀ s w wd rest i, s.pending = .request w wd :: rest → decode w wd = .ok i →
    step s = exec i { s with pending := rest }) ∧
  (∀ s w wd rest e, s.pending = .request w wd :: rest → decode w wd = .error e →
    step s = transact rejectWord { s with pending := rest }) ∧
  (∀ s w i, w < 2 ^ 32 → decodeTableWord 32 w = some i → step (s.withFetchWord 32 w) = exec i s)

/-- Every step goes on: a request is answered with exactly one response, in issue order (30_encoding.md section 1;
20_memory.md section 6; 70_reset_and_hazards.md section 5: "every command responds and no command waits for anything").
That a step with nothing issued changes nothing is the model's choice (log entry 4), and so is what a reset event does to the
port: pending events stay and no response is delivered (log entries 2 and 6). -/
def Obligations.EveryRequestIsAnsweredOnce : Prop :=
  (∀ s, ∃ t, step s = .next t ∧
    ((s.pending = [] ∧ t = s) ∨
     (∃ rest, s.pending = .reset :: rest ∧ t.pending = rest ∧ t.responses = s.responses) ∨
     (∃ w wd rest r, s.pending = .request w wd :: rest ∧ Answered r (taken s rest) t))) ∧
  (∀ i s, ∃ t r, exec i s = .next t ∧ Answered r s t)

/-- R151: outside FAULT an ill-formed word, whatever `wdata`, is `E_OPC`. -/
def Obligations.IllFormedWordFaultsOpc : Prop :=
  ∀ s w wd rest, s.pending = .request w wd :: rest → s.engine.phase ≠ .fault → IllFormed w →
    ∃ t, step s = .next t ∧ Faulted .eOpc (taken s rest) t

/-- R155: in FAULT every command but a well-formed INIT or RDS, every ill-formed word included, is answered `(E_FLT, 0)`
and changes nothing. -/
def Obligations.FaultedEngineIgnoresCommands : Prop :=
  ∀ s w wd rest, s.pending = .request w wd :: rest → s.engine.phase = .fault →
    (∀ m, decode w wd ≠ .ok (.init m)) → decode w wd ≠ .ok .rds →
    ∃ t, step s = .next t ∧ Ignored (taken s rest) t

/-- R156: the first check that fails decides the outcome: phase FAULT and ill-formed words, admission, range, overflow; a
command that passes them all completes. -/
def Obligations.FirstFailingCheckDecides : Prop :=
  (∀ i s, ∃ t, exec i s = .next t ∧ FirstFailure i s t) ∧
  (∀ s w wd rest e, s.pending = .request w wd :: rest → decode w wd = .error e →
    ∃ t, step s = .next t ∧
      (if s.engine.phase = .fault then Ignored (taken s rest) t else Faulted .eOpc (taken s rest) t))

/-- R157: a command that answers with a fault code has done exactly `PHASE <- FAULT`, `ERR <- code`, response
`(code, 0)`; `MODE`, `COUT` and every limb are as before. -/
def Obligations.FaultChangesOnlyPhaseAndErr : Prop :=
  (∀ i s t r c, exec i s = .next t → Answered r s t → r.status = FaultCode.status c → Faulted c s t) ∧
  (∀ s w wd rest t r c, s.pending = .request w wd :: rest → step s = .next t → Answered r (taken s rest) t →
    r.status = FaultCode.status c → Faulted c (taken s rest) t)

/-- R158: the only exits from FAULT are a well-formed INIT, which starts a fresh call, and reset; while in FAULT, `ERR`
keeps the first cause and every command but RDS is answered `E_FLT`. -/
def Obligations.OnlyInitOrResetLeavesFault : Prop :=
  ∀ s t, s.engine.phase = .fault → step s = .next t →
    (t.engine.phase = .fault ∧ t.engine.err = s.engine.err ∧
      ∀ w wd rest, s.pending = .request w wd :: rest → decode w wd ≠ .ok .rds → Ignored (taken s rest) t) ∨
    (∃ rest, s.pending = .reset :: rest ∧ t.engine.phase = .idle ∧ t.engine.err = none) ∨
    (∃ w wd rest m, s.pending = .request w wd :: rest ∧ decode w wd = .ok (.init m) ∧ t.engine.phase = .accum ∧
      t.engine.mode = m ∧ t.engine.err = none ∧ t.engine.cout = 0 ∧ ∀ i < NMAX, t.engine.limb i = 0)

/-- R17: every transition of `PHASE`, which command is admitted in which phase, and that after NORM nothing changes the
limbs until the next INIT. -/
def Obligations.PhaseMovesOnlyOneWay : Prop :=
  (∀ i s t r, exec i s = .next t → Answered r s t →
    match i with
    | .init _ => t.engine.phase = .accum ∧ r.status = .ok
    | .rds => t.engine.phase = s.engine.phase ∧ r.status = .ok
    | .norm => (r.status = .ok → s.engine.phase = .accum ∧ t.engine.phase = .normd) ∧
        (r.status ≠ .ok → t.engine.phase = .fault)
    | .acc _ _ | .wrl _ _ => (r.status = .ok → s.engine.phase = .accum ∧ t.engine.phase = .accum) ∧
        (r.status ≠ .ok → t.engine.phase = .fault)
    | .unpk _ => (r.status = .ok → s.engine.phase = .normd ∧ t.engine.phase = .normd) ∧
        (r.status ≠ .ok → t.engine.phase = .fault)
    | .rdl _ | .rdt _ _ _ | .rdc => (r.status = .ok → (s.engine.phase = .accum ∨ s.engine.phase = .normd) ∧
          t.engine.phase = s.engine.phase) ∧
        (r.status ≠ .ok → t.engine.phase = .fault)) ∧
  (∀ i s t r, exec i s = .next t → Answered r s t →
    ((r.status = .eSeq ↔ s.engine.phase ≠ .fault ∧ ¬ Admitted i s.engine.phase) ∧
     (r.status = .eFlt ↔ s.engine.phase = .fault ∧ ¬ Admitted i .fault) ∧
     (r.status = .eFlt → Ignored s t))) ∧
  (∀ i s t, s.engine.phase = .normd → i.opcode ≠ .init → exec i s = .next t → SameLimbs s t) ∧
  (∀ s rest t, s.pending = .reset :: rest → step s = .next t → t.engine.phase = .idle) ∧
  (∀ s w wd rest e t, s.pending = .request w wd :: rest → decode w wd = .error e → step s = .next t →
    t.engine.phase = .fault ∧ (s.engine.phase = .fault → Ignored (taken s rest) t))

/-- The "written by" column of 10_state.md section 1: only INIT writes `MODE`, only INIT and a completing NORM write
`COUT`, only INIT, ACC, NORM and WRL write a limb, and only when they complete, only INIT, NORM and a fault write `PHASE`,
only INIT and a fault write `ERR`, and an ignored command writes nothing. -/
def Obligations.EachFieldHasItsWriters : Prop :=
  ∀ i s t r, exec i s = .next t → Answered r s t →
    (i.opcode ≠ .init → t.engine.mode = s.engine.mode) ∧
    (i.opcode ≠ .init → i.opcode ≠ .norm ∨ r.status ≠ .ok → t.engine.cout = s.engine.cout) ∧
    (i.opcode ≠ .init → i.opcode ≠ .acc → i.opcode ≠ .norm → i.opcode ≠ .wrl → SameLimbs s t) ∧
    (i.opcode ≠ .init → i.opcode ≠ .norm → r.status = .ok → t.engine.phase = s.engine.phase) ∧
    (i.opcode ≠ .init → r.status = .ok ∨ r.status = .eFlt → t.engine.err = s.engine.err) ∧
    (r.status ≠ .ok → SameLimbs s t) ∧
    (r.status = .eFlt → Ignored s t)

/-- R66: but for WRL the engine ignores `wdata`: neither state nor response depends on it. -/
def Obligations.WdataMattersToWrlOnly : Prop :=
  ∀ (s : State) w wd wd' rest, (∀ i d, decode w wd ≠ .ok (.wrl i d)) →
    step { s with pending := .request w wd :: rest } = step { s with pending := .request w wd' :: rest }

/-- R68: `rdata` is zero whenever the status is not OK and for INIT, ACC, NORM and WRL; else it is the digit, the limb, the
table word, `STATUS` or `COUT`. -/
def Obligations.ResponseDataIsTheResultOrZero : Prop :=
  (∀ i s t r, exec i s = .next t → Answered r s t →
    (r.status ≠ .ok → r.rdata = 0) ∧
    (r.status = .ok → match i with
      | .init _ | .acc _ _ | .norm | .wrl _ _ => r.rdata = 0
      | .unpk j => r.rdata.toNat = x s (n s - 1 - j / s.engine.mode.params.k) /
          s.engine.mode.params.b ^ (s.engine.mode.params.k - 1 - j % s.engine.mode.params.k) %
          s.engine.mode.params.b
      | .rdl i => r.rdata = s.engine.limb i
      | .rdt v p i => r.rdata.toNat = word s.engine.mode v p i
      | .rds => r.rdata = s.engine.statusWord
      | .rdc => r.rdata = s.engine.cout)) ∧
  (∀ s w wd rest e t r, s.pending = .request w wd :: rest → decode w wd = .error e → step s = .next t →
    Answered r (taken s rest) t → r.status ≠ .ok ∧ r.rdata = 0)

/-! ### The invariant -/

/-- The invariant holds at reset. (It does not depend on the limb values the model chose there.) -/
def Obligations.InvariantHoldsAtReset : Prop := State.reset.engine.Inv

/-- Every step keeps the invariant (10_state.md sections 4 to 6): FAULT exactly when `ERR ≠ 0`, limbs below `R` in NORMD,
`COUT = 0` in ACCUM, reset control state in IDLE, limbs beyond `n` zero within a call, `COUT ≤ (2^64-1) div R`. -/
def Obligations.EveryStepKeepsTheInvariant : Prop :=
  ∀ s t, s.engine.Inv → step s = .next t → t.engine.Inv

/-! ### The carry pass and accumulation -/

/-- What NORM guarantees (42_normalize.md, the spec's own derivation R101): with `S = Σ x[i]·R^i` before,
`x[i] = (S div R^i) mod R`, `COUT = S div R^n`, the value is preserved, and no other limbs below `R` and carry-out represent
it. -/
def Obligations.NormWritesTheRadixExpansion : Prop :=
  ∀ s t r, s.engine.phase = .accum → exec .norm s = .next t → Answered r s t → r.status = .ok →
    (∀ i < n s, x t i = s.engine.limbVal / R s ^ i % R s) ∧
    t.engine.cout.toNat = s.engine.limbVal / R s ^ n s ∧
    t.engine.val = s.engine.limbVal ∧
    (∀ (y : Nat → Nat) (c : Nat), (∀ i < n s, y i < R s) →
      c * R s ^ n s + ∑ i ∈ Finset.range (n s), y i * R s ^ i = s.engine.limbVal →
      c = t.engine.cout.toNat ∧ ∀ i < n s, y i = x t i)

/-- When NORM cannot fault (42_normalize.md, the spec's own derivation R104): (a) with every limb at most `m·(R-1)`,
`m < 2^32`; (b) with every limb but the first at most `2^64 - 1 - (2^64-1) div R`. -/
def Obligations.NormCompletesWithinTheBounds : Prop :=
  (∀ s m, s.engine.phase = .accum → m < 2 ^ 32 → (∀ i < n s, x s i ≤ m * (R s - 1)) →
    ∃ t, exec .norm s = .next t ∧ Answered ⟨.ok, 0⟩ s t ∧ t.engine.phase = .normd) ∧
  (∀ s, s.engine.phase = .accum → (∀ i < n s, 1 ≤ i → x s i ≤ 2 ^ 64 - 1 - (2 ^ 64 - 1) / R s) →
    ∃ t, exec .norm s = .next t ∧ Answered ⟨.ok, 0⟩ s t ∧ t.engine.phase = .normd)

/-- ACC commands between an INIT and a NORM can be reordered (41_accumulate.md, the spec's own derivation R92): if they all
complete in one order they do in every order, and leave the same engine. -/
def Obligations.AccOrderDoesNotMatter : Prop :=
  ∀ (s t : State) (rows rows' : List (Nat × Nat)) ds, s.pending = [] → s.engine.phase = .accum →
    (∀ q ∈ rows, q.1 < 256 ∧ q.2 < 256) → rows.Perm rows' →
    issueAll (rows.map fun q => .acc q.1 q.2) s = some (ds, t) →
    ∃ ds' t', issueAll (rows'.map fun q => .acc q.1 q.2) s = some (ds', t') ∧ t'.engine = t.engine

/-- The growth bound (41_accumulate.md, the spec's own derivation R93): after INIT and fewer than `2^32` ACC commands in
range, in any mode and from any state, no command has faulted, every limb is the sum of its table words, and it is at most
`m·(R-1)`. -/
def Obligations.AccGrowthIsBounded : Prop :=
  ∀ (m : Mode) (rows : List (Nat × Nat)) (s : State), s.pending = [] → rows.length < 2 ^ 32 →
    (∀ q ∈ rows, q.1 < m.params.V ∧ q.2 < m.params.P) →
    ∃ ds t, issueAll (.init m :: rows.map fun q => .acc q.1 q.2) s = some (ds, t) ∧ t.engine.phase = .accum ∧
      t.engine.mode = m ∧
      (∀ i < m.params.n, x t i = (rows.map fun q => word m q.1 q.2 i).sum ∧
        x t i ≤ rows.length * (m.params.R - 1))

/-- The digit sequence as a number (43_digits_and_limbs.md, the spec's own derivation R113): in NORMD with limbs below `R`
the digits UNPK answers are below `b` and, most significant first, represent the limbs, which are `Val - COUT·R^n`. -/
def Obligations.DigitsRepresentTheLimbs : Prop :=
  ∀ s (d : Nat → Word), s.engine.phase = .normd → (∀ i < n s, x s i < R s) →
    (∀ j < n s * s.engine.mode.params.k, ∃ t, exec (.unpk j) s = .next t ∧ Answered ⟨.ok, d j⟩ s t) →
    (∀ j < n s * s.engine.mode.params.k, (d j).toNat < s.engine.mode.params.b) ∧
    ∑ j ∈ Finset.range (n s * s.engine.mode.params.k),
        (d j).toNat * s.engine.mode.params.b ^ (n s * s.engine.mode.params.k - 1 - j) =
      ∑ i ∈ Finset.range (n s), x s i * R s ^ i ∧
    ∑ i ∈ Finset.range (n s), x s i * R s ^ i = s.engine.val - s.engine.cout.toNat * R s ^ n s

/-- The capacity theorem (70_reset_and_hazards.md, the spec's own derivation R175): a call of INIT, ACC commands that use
each position at most once, and NORM, from any state: no command faults, every limb before NORM is at most `P·(R-1)`, and
afterwards `COUT = 0` and the limbs are below `R` and represent `Σ v·g^(P-1-p)` exactly. -/
def Obligations.DocumentedCallsNeverOverflow : Prop :=
  ∀ (m : Mode) (rows : List (Nat × Nat)) (s : State), s.pending = [] →
    (∀ q ∈ rows, q.1 < m.params.V ∧ q.2 < m.params.P) → (rows.map Prod.snd).Nodup →
    ∃ ds t ds' u, issueAll (.init m :: rows.map fun q => .acc q.1 q.2) s = some (ds, t) ∧
      (∀ i < m.params.n, x t i ≤ m.params.P * (m.params.R - 1) ∧ x t i < 2 ^ 39) ∧
      issueAll [.norm] t = some (ds', u) ∧ u.engine.phase = .normd ∧ u.engine.mode = m ∧ u.engine.cout = 0 ∧
      (∀ i < m.params.n, x u i < m.params.R) ∧
      u.engine.val = (rows.map fun q => q.1 * m.params.g ^ (m.params.P - 1 - q.2)).sum ∧
      u.engine.val ≤ m.params.g ^ m.params.P - 1

/-! ### The tables -/

/-- Properties of the tables (20_memory.md section 2, the spec's own derivation R34): exactness, range, zero row, units,
and the 32-byte tables inside the 64-byte ones. -/
def Obligations.TableRowsAreExactAndReduced : Prop :=
  (∀ (m : Mode) v p, v < m.params.V → p < m.params.P →
    ∑ i ∈ Finset.range m.params.n, tableWord m v p i * m.params.R ^ i =
      v * m.params.g ^ (m.params.P - 1 - p)) ∧
  (∀ m v p i, tableWord m v p i < m.params.R ∧ tableWord m v p i < 2 ^ 32) ∧
  (∀ m p i, tableWord m 0 p i = 0) ∧
  (∀ (m : Mode) v, v < m.params.V → tableWord m v (m.params.P - 1) 0 = v ∧
    ∀ i, 1 ≤ i → tableWord m v (m.params.P - 1) i = 0) ∧
  (∀ v p, v < 256 → p < 32 → (∀ i, tableWord .enc64 v (p + 32) i = tableWord .enc32 v p i) ∧
    ∀ i, 9 ≤ i → tableWord .enc64 v (p + 32) i = 0) ∧
  (∀ v p, v < 58 → p < 44 → ∀ i, tableWord .dec64 v (p + 44) i = tableWord .dec32 v p i)

/-- The generation algorithm gives the words of the formula (20_memory.md section 2, R33: "produces exactly the words of
rule R32"), for every row of every table. -/
def Obligations.GeneratedTablesMatchTheFormula : Prop :=
  ∀ (m : Mode) v p, v < m.params.V → p < m.params.P →
    generatedRow m v p = (List.range m.params.n).map fun i =>
      v * m.params.g ^ (m.params.P - 1 - p) / m.params.R ^ i % m.params.R

/-! ### Several instances -/

/-- R162: a step of one instance changes no other, what it does depends on that instance alone, and each instance leaves
reset in IDLE by itself. -/
def Obligations.InstancesDoNotInteract : Prop :=
  (∀ (sys : System) k, ∃ sys', sys.stepAt k = .next sys' ∧ sys'.instances.length = sys.instances.length ∧
    ∀ j, j ≠ k → sys'.instances[j]? = sys.instances[j]?) ∧
  (∀ (a b a' b' : System) k, a.instances[k]? = b.instances[k]? → a.stepAt k = .next a' → b.stepAt k = .next b' →
    a'.instances[k]? = b'.instances[k]?) ∧
  (∀ (sys : System) k s rest, sys.instances[k]? = some s → s.pending = .reset :: rest →
    ∃ sys' t, sys.stepAt k = .next sys' ∧ sys'.instances[k]? = some t ∧ t.engine.phase = .idle)

/-! ### The host procedures -/

/-- R121, R122: the 58 characters in order; the decode table is their inverse and INVALID on the other 198 bytes. -/
def Obligations.AlphabetTablesAreInverse : Prop :=
  alphabet = "123456789ABCDEFGHJKLMNPQRSTUVWXYZabcdefghijkmnopqrstuvwxyz".toList.map (fun c => BitVec.ofNat 8 c.toNat) ∧
  alphabet.length = 58 ∧ (∀ d < 58, charDigit (digitChar d) = d) ∧
  (∀ c : Byte, charDigit c = 255 ∨ (charDigit c < 58 ∧ digitChar (charDigit c) = c)) ∧
  ((List.range 256).filter fun c => charDigit (BitVec.ofNat 8 c) == 255).length = 198 ∧
  (∀ c ∈ [0x30#8, 0x49#8, 0x4F#8, 0x6C#8], charDigit c = 255) ∧ ∀ c : Byte, 0x80 ≤ c.toNat → charDigit c = 255

/-- `encode_N` is total and gives the ordinary Base58 text (44_host_procedures.md section 2; the spec's own derivation
R125): from any state with nothing outstanding, for every buffer of `N` bytes, no command faults and the text is a `'1'` for
each leading zero byte and then the base-58 expansion of the magnitude, at most `L(N)` characters long. -/
def Obligations.EncodeGivesOrdinaryBase58 : Prop :=
  ∀ (w : Width) (buf : List Byte) (s : State), s.pending = [] → buf.length = w.bytes →
    ∃ t, encodeText w buf s = some ((base58 buf, (base58 buf).length), t) ∧ (base58 buf).length ≤ w.maxText ∧
      ones (base58 buf) = zeros buf ∧ t.pending = []

/-- `decode_N` is total and gives the result of R126, R127 and R129 (44_host_procedures.md section 3): from any state with
nothing outstanding and for every text, no command faults, and the result is `TooLong`, else `InvalidCharacter` at the first
invalid position, else `Overflow`, else the `N` bytes of the text's value. -/
def Obligations.DecodeGivesTheDocumentedResult : Prop :=
  ∀ (w : Width) (text : List Byte) (s : State), s.pending = [] →
    ∃ r t, decodeText w text s = some (r, t) ∧ Decodes w text r ∧ t.pending = []

/-- R130: for all `N`-byte buffers, `decode_N(encode_N(b)) = b`, through the engine, from any two states with nothing
outstanding. (The spec derives this rule.) -/
def Obligations.DecodeOfEncodeIsTheBuffer : Prop :=
  ∀ (w : Width) (buf : List Byte) (s s' : State), s.pending = [] → s'.pending = [] → buf.length = w.bytes →
    ∃ text len t t', encodeText w buf s = some ((text, len), t) ∧ decodeText w text s' = some (.ok buf, t')

/-! ### Assembly -/

/-- R69's example lines and their words. -/
def Obligations.AssemblyExamplesAssemble : Prop :=
  assemble "INIT DEC32".toList = .ok (some (0x10000002, 0)) ∧
  assemble "ACC 0x12, 30".toList = .ok (some (0x2000121E, 0)) ∧
  assemble "NORM".toList = .ok (some (0x30000000, 0)) ∧
  assemble "UNPK 44".toList = .ok (some (0x4000002C, 0)) ∧
  assemble "RDL 8".toList = .ok (some (0x50000008, 0)) ∧
  assemble "WRL 16, 0xFFFFFFFFFFFFFFFF".toList = .ok (some (0x60000010, 0xFFFFFFFFFFFFFFFF)) ∧
  assemble "RDT 57, 0, 16 ; the top limb".toList = .ok (some (0x70103900, 0)) ∧
  assemble "RDS".toList = .ok (some (0x80000000, 0)) ∧ assemble "RDC".toList = .ok (some (0x90000000, 0))

/-- Assembled commands are well formed (30_encoding.md section 7): a line the assembler accepts as a command decodes to
that command, whose operands fit their fields, and only WRL has a `wdata` other than 0. -/
def Obligations.AssembledCommandsDecode : Prop :=
  ∀ line i, parseLine line = .ok (.command i) →
    ∃ w wd, assemble line = .ok (some (w, wd)) ∧ i.wellFormed = true ∧ decode w wd = .ok i ∧
      (i.opcode ≠ .wrl → wd = 0)
end

