-- ==== Sys2Proof/Laws/Radix.lean ====
section
/-! SUPPORT. Numbers in a fixed radix: sums of digits times powers, their digits again, the carry pass over a list, and
the table words. -/

namespace Sys2Proof.Machine

open Finset

/-! ### Digits of a number -/

/-- The lowest digit taken out of a radix sum. -/
theorem radix_succ (R n : Nat) (y : Nat → Nat) :
    ∑ i ∈ range (n + 1), y i * R ^ i = y 0 + R * ∑ i ∈ range n, y (i + 1) * R ^ i := by
  rw [Finset.sum_range_succ', Finset.mul_sum]
  simp only [pow_zero, mul_one]
  rw [add_comm]; congr 1
  exact Finset.sum_congr rfl fun i _ => by rw [pow_succ]; ring

/-- A radix sum of reduced digits is below `R^n`. -/
theorem radix_lt (R n : Nat) (y : Nat → Nat) (hy : ∀ i < n, y i < R) :
    ∑ i ∈ range n, y i * R ^ i < R ^ n := by
  induction n with
  | zero => simp
  | succ n ih =>
    rw [Finset.sum_range_succ, pow_succ]
    have h1 := ih fun i hi => hy i (Nat.lt_succ_of_lt hi)
    have h2 : (y n + 1) * R ^ n ≤ R * R ^ n := Nat.mul_le_mul_right _ (hy n (Nat.lt_succ_self n))
    nlinarith

/-- The digits of a radix sum are the digits it was made of, and what is above them is the carry-out: a representation in
radix `R` is unique. -/
theorem radix_digits (R n : Nat) (hR : 0 < R) (y : Nat → Nat) (c : Nat) (hy : ∀ i < n, y i < R) :
    (∀ i < n, (c * R ^ n + ∑ i ∈ range n, y i * R ^ i) / R ^ i % R = y i) ∧
      (c * R ^ n + ∑ i ∈ range n, y i * R ^ i) / R ^ n = c := by
  induction n generalizing y with
  | zero => simp
  | succ n ih =>
    obtain ⟨h1, h2⟩ := ih (fun i => y (i + 1)) fun i hi => hy (i + 1) (Nat.succ_lt_succ hi)
    have e : c * R ^ (n + 1) + ∑ i ∈ range (n + 1), y i * R ^ i =
        y 0 + R * (c * R ^ n + ∑ i ∈ range n, y (i + 1) * R ^ i) := by rw [radix_succ, pow_succ]; ring
    have h0 : y 0 < R := hy 0 (Nat.succ_pos n)
    have hdiv : ∀ Z, (y 0 + R * Z) / R = Z := fun Z => by
      rw [Nat.add_mul_div_left _ _ hR, Nat.div_eq_of_lt h0, Nat.zero_add]
    rw [e]
    refine ⟨fun i hi => ?_, ?_⟩
    · cases i with
      | zero => simp [Nat.mod_eq_of_lt h0]
      | succ i => rw [pow_succ', ← Nat.div_div_eq_div_mul, hdiv]; exact h1 i (Nat.lt_of_succ_lt_succ hi)
    · rw [pow_succ', ← Nat.div_div_eq_div_mul, hdiv]; exact h2

/-- The first `n` digits of a number represent it modulo `R^n`. -/
theorem radix_of_digits (R n S : Nat) : ∑ i ∈ range n, S / R ^ i % R * R ^ i = S % R ^ n := by
  induction n with
  | zero => simp [Nat.mod_one]
  | succ n ih => rw [Finset.sum_range_succ, ih, pow_succ, Nat.mod_mul]; ring

/-! ### The carry pass (R100) -/

/-- A pass whose sums all stay below `2^64` answers each limb plus its carry, reduced, and the last carry; `f` is the
sequence of carries. -/
theorem carryPass_some (R : Nat) (l : List Nat) (f : Nat → Nat)
    (hf : ∀ i < l.length, f (i + 1) = (l.getD i 0 + f i) / R)
    (hlt : ∀ i < l.length, l.getD i 0 + f i < wordLimit) :
    carryPass R (f 0) l = some ((List.range l.length).map fun i => (l.getD i 0 + f i) % R, f l.length) := by
  induction l generalizing f with
  | nil => rfl
  | cons x xs ih =>
    have h0 := hf 0 (by simp); have h1 := hlt 0 (by simp)
    simp only [List.getD_cons_zero, Nat.zero_add] at h0 h1
    have := ih (fun i => f (i + 1)) (fun i hi => by simpa using hf (i + 1) (by simpa using hi))
      (fun i hi => by simpa using hlt (i + 1) (by simpa using hi))
    simp only [carryPass, Nat.not_le.mpr h1, if_false, ← h0]
    simp only [Nat.zero_add] at this
    rw [this]
    simp [List.range_succ_eq_map, Function.comp_def]

/-- A pass in which some sum reaches `2^64` answers nothing. -/
theorem carryPass_none (R : Nat) (l : List Nat) (f : Nat → Nat)
    (hf : ∀ i < l.length, f (i + 1) = (l.getD i 0 + f i) / R)
    (hge : ∃ i < l.length, wordLimit ≤ l.getD i 0 + f i) :
    carryPass R (f 0) l = none := by
  induction l generalizing f with
  | nil => obtain ⟨i, hi, -⟩ := hge; simp at hi
  | cons x xs ih =>
    have h0 := hf 0 (by simp)
    simp only [List.getD_cons_zero, Nat.zero_add] at h0
    by_cases hx : wordLimit ≤ x + f 0
    · simp [carryPass, hx]
    · have := ih (fun i => f (i + 1)) (fun i hi => by simpa using hf (i + 1) (by simpa using hi)) (by
        obtain ⟨i, hi, hge⟩ := hge
        cases i with
        | zero => exact absurd (by simpa using hge) hx
        | succ i => exact ⟨i, by simpa using hi, by simpa using hge⟩)
      simp only [Nat.zero_add] at this
      simp only [carryPass, hx, if_false, ← h0, this]

/-- One pass preserves the value: the reduced limbs and the last carry represent what the limbs and the first carry did. -/
theorem carry_value (R n : Nat) (y f : Nat → Nat) (hf : ∀ i < n, f (i + 1) = (y i + f i) / R) :
    f n * R ^ n + ∑ i ∈ range n, (y i + f i) % R * R ^ i = f 0 + ∑ i ∈ range n, y i * R ^ i := by
  induction n with
  | zero => simp
  | succ n ih =>
    have ih' := ih fun i hi => hf i (Nat.lt_succ_of_lt hi)
    rw [Finset.sum_range_succ, Finset.sum_range_succ, hf n (Nat.lt_succ_self n), pow_succ]
    have h := Nat.div_add_mod (y n + f n) R
    have h' : (y n + f n) / R * (R ^ n * R) + (y n + f n) % R * R ^ n = (y n + f n) * R ^ n := by
      calc _ = (R * ((y n + f n) / R) + (y n + f n) % R) * R ^ n := by ring
        _ = _ := by rw [h]
    linarith [h', add_mul (y n) (f n) (R ^ n)]

/-! ### The parameters (R2) -/

theorem radix_pos (m : Mode) : 0 < m.params.R := by cases m <;> decide
theorem radix_le (m : Mode) : m.params.R ≤ 2 ^ 32 := by cases m <;> decide
theorem base_pos (m : Mode) : 1 < m.params.b := by cases m <;> decide
theorem limb_count_le (m : Mode) : m.params.n ≤ NMAX := by cases m <;> decide
theorem limb_count_pos (m : Mode) : 0 < m.params.n := by cases m <;> decide
theorem digits_per_limb_pos (m : Mode) : 0 < m.params.k := by cases m <;> decide
theorem values_eq_weight (m : Mode) : m.params.V = m.params.g := by cases m <;> rfl
theorem weight_base_pos (m : Mode) : 1 < m.params.g := by cases m <;> decide
theorem values_le (m : Mode) : m.params.V ≤ 256 := by cases m <;> decide
theorem positions_le (m : Mode) : m.params.P ≤ 88 := by cases m <;> decide

/-- `g^P ≤ R^n`: every value accumulated with each position used once fits (R34 item 1, R175 d). -/
theorem capacity (m : Mode) : m.params.g ^ m.params.P ≤ m.params.R ^ m.params.n := by cases m <;> decide

/-! ### The tables (R32) -/

theorem tableWord_lt (m : Mode) (v p i : Nat) : tableWord m v p i < m.params.R := Nat.mod_lt _ (radix_pos m)

@[simp] theorem length_tableRow (m : Mode) (v p : Nat) : (tableRow m v p).length = m.params.n := by simp [tableRow]

/-- A row in range is its number, nothing truncated. -/
theorem row_lt_capacity (m : Mode) (v p : Nat) (hv : v < m.params.V) (hp : p < m.params.P) :
    v * posWeight m p < m.params.R ^ m.params.n := by
  refine Nat.lt_of_lt_of_le ?_ (capacity m)
  rw [values_eq_weight] at hv
  have hg : 0 < m.params.g := Nat.lt_of_succ_lt (weight_base_pos m)
  calc v * posWeight m p < m.params.g * posWeight m p := Nat.mul_lt_mul_of_pos_right hv (Nat.pow_pos hg)
    _ = m.params.g ^ (m.params.P - 1 - p + 1) := by rw [posWeight, pow_succ']
    _ ≤ m.params.g ^ m.params.P := Nat.pow_le_pow_right hg (by omega)

/-- One multiplication of reduced limbs by a small number gives the reduced limbs of the product (R33). -/
theorem scaleLimbs_digits (R f n : Nat) (hR : 0 < R) (S c : Nat) :
    scaleLimbs R f c ((List.range n).map fun i => S / R ^ i % R) =
      (List.range n).map fun i => (S % R ^ n * f + c) / R ^ i % R := by
  induction n generalizing S c with
  | zero => rfl
  | succ n ih =>
    have hshift : ∀ T : Nat, (List.range (n + 1)).map (fun i => T / R ^ i % R) =
        T % R :: (List.range n).map fun i => T / R / R ^ i % R := by
      intro T
      simp [List.range_succ_eq_map, Function.comp_def, pow_succ', Nat.div_div_eq_div_mul]
    rw [hshift, hshift, scaleLimbs, ih]
    have hm : S % R ^ (n + 1) = S % R + R * (S / R % R ^ n) := by rw [pow_succ', Nat.mod_mul]
    have hd : (S % R ^ (n + 1) * f + c) / R = (S / R % R ^ n) * f + (S % R * f + c) / R := by
      rw [hm, show (S % R + R * (S / R % R ^ n)) * f + c = S % R * f + c + R * (S / R % R ^ n * f) by ring,
        Nat.add_mul_div_left _ _ hR, Nat.add_comm]
    rw [hd]
    congr 1
    rw [hm, show (S % R + R * (S / R % R ^ n)) * f + c = S % R * f + c + R * (S / R % R ^ n * f) by ring,
      Nat.add_mul_mod_self_left]

end Sys2Proof.Machine
end

