-- ==== Sys2Proof/Laws/State.lean ====
section
/-! SUPPORT. The small lemmas of the state: what each record update leaves in each field, and reading a limb register
after each kind of write. -/

namespace Sys2Proof.Machine

/-! ### The register file -/

@[simp] theorem limb_limbsOf (e : Engine) (f : Nat → Word) (i : Nat) (h : i < NMAX) :
    Engine.limb { e with limbs := limbsOf f } i = f i := by
  have h' : i < (List.range NMAX).length := by simpa using h
  simp only [Engine.limb, limbsOf, Vector.toList, List.getD_eq_getElem?_getD, List.getElem?_map]
  rw [List.getElem?_eq_getElem h']
  simp

theorem limb_beyond (e : Engine) (i : Nat) (h : NMAX ≤ i) : e.limb i = 0 := by
  have h' : e.limbs.toList.length ≤ i := by simpa using h
  simp [Engine.limb, List.getD_eq_getElem?_getD, List.getElem?_eq_none h']

/-- A register file is determined by its 18 registers. -/
theorem limbs_ext (e f : Engine) (h : ∀ i < NMAX, e.limb i = f.limb i) : e.limbs = f.limbs := by
  apply Vector.toList_inj.mp
  apply List.ext_getElem? ; intro i
  by_cases hi : i < NMAX
  · have h1 : i < e.limbs.toList.length := by simpa using hi
    have h2 : i < f.limbs.toList.length := by simpa using hi
    have := h i hi
    simp only [Engine.limb, List.getD_eq_getElem?_getD, List.getElem?_eq_getElem h1,
      List.getElem?_eq_getElem h2, Option.getD_some] at this
    simp [List.getElem?_eq_getElem h1, List.getElem?_eq_getElem h2, this]
  · have h1 : e.limbs.toList.length ≤ i := by simpa using Nat.le_of_not_lt hi
    have h2 : f.limbs.toList.length ≤ i := by simpa using Nat.le_of_not_lt hi
    simp [List.getElem?_eq_none h1, List.getElem?_eq_none h2]

/-- Two engines with the same registers and the same control fields are equal. -/
theorem engine_ext (e f : Engine) (hl : ∀ i < NMAX, e.limb i = f.limb i) (hc : e.cout = f.cout)
    (hm : e.mode = f.mode) (hp : e.phase = f.phase) (he : e.err = f.err) : e = f := by
  have := limbs_ext e f hl
  cases e; cases f; simp_all

theorem limb_setLimb (e : Engine) (i : Nat) (w : Word) (j : Nat) (h : j < NMAX) :
    (e.setLimb i w).limb j = if j = i then w else e.limb j := by
  simp [Engine.setLimb, h]

theorem limb_setLanes (e : Engine) (q : List Nat) (j : Nat) (h : j < NMAX) :
    (e.setLanes q).limb j = if j < q.length then BitVec.ofNat 64 (q.getD j 0) else e.limb j := by
  simp [Engine.setLanes, h]

@[simp] theorem length_lanes (e : Engine) (n : Nat) : (e.lanes n).length = n := by simp [Engine.lanes]

theorem lanes_getElem (e : Engine) (n i : Nat) (h : i < (e.lanes n).length) : (e.lanes n)[i] = (e.limb i).toNat := by
  simp [Engine.lanes]

/-! ### A limb is read from the register file alone -/

@[simp] theorem limb_with_cout (e : Engine) (c : Word) (i : Nat) : Engine.limb { e with cout := c } i = e.limb i := rfl
@[simp] theorem limb_with_mode (e : Engine) (m : Mode) (i : Nat) : Engine.limb { e with mode := m } i = e.limb i := rfl
@[simp] theorem limb_with_phase (e : Engine) (p : Phase) (i : Nat) :
    Engine.limb { e with phase := p } i = e.limb i := rfl
@[simp] theorem limb_with_err (e : Engine) (c : Option FaultCode) (i : Nat) :
    Engine.limb { e with err := c } i = e.limb i := rfl

/-! ### What each operation leaves in each field -/

@[simp] theorem setLimb_cout (e : Engine) (i : Nat) (w : Word) : (e.setLimb i w).cout = e.cout := rfl
@[simp] theorem setLimb_mode (e : Engine) (i : Nat) (w : Word) : (e.setLimb i w).mode = e.mode := rfl
@[simp] theorem setLimb_phase (e : Engine) (i : Nat) (w : Word) : (e.setLimb i w).phase = e.phase := rfl
@[simp] theorem setLimb_err (e : Engine) (i : Nat) (w : Word) : (e.setLimb i w).err = e.err := rfl
@[simp] theorem setLanes_cout (e : Engine) (q : List Nat) : (e.setLanes q).cout = e.cout := rfl
@[simp] theorem setLanes_mode (e : Engine) (q : List Nat) : (e.setLanes q).mode = e.mode := rfl
@[simp] theorem setLanes_phase (e : Engine) (q : List Nat) : (e.setLanes q).phase = e.phase := rfl
@[simp] theorem setLanes_err (e : Engine) (q : List Nat) : (e.setLanes q).err = e.err := rfl

@[simp] theorem beginCall_limb (m : Mode) (e : Engine) (i : Nat) : (beginCall m e).limb i = 0 := by
  by_cases h : i < NMAX
  · have : (beginCall m e).limb i = Engine.limb { e with limbs := limbsOf fun _ => 0 } i := rfl
    simp [this, h]
  · exact limb_beyond _ _ (Nat.le_of_not_lt h)
@[simp] theorem beginCall_cout (m : Mode) (e : Engine) : (beginCall m e).cout = 0 := rfl
@[simp] theorem beginCall_mode (m : Mode) (e : Engine) : (beginCall m e).mode = m := rfl
@[simp] theorem beginCall_phase (m : Mode) (e : Engine) : (beginCall m e).phase = .accum := rfl
@[simp] theorem beginCall_err (m : Mode) (e : Engine) : (beginCall m e).err = none := rfl

@[simp] theorem reset_limb (i : Nat) : Engine.reset.limb i = 0 := by
  by_cases h : i < NMAX
  · simp [Engine.limb, Engine.reset, List.getD_eq_getElem?_getD, h]
  · exact limb_beyond _ _ (Nat.le_of_not_lt h)
@[simp] theorem reset_cout : Engine.reset.cout = 0 := rfl
@[simp] theorem reset_mode : Engine.reset.mode = .enc32 := rfl
@[simp] theorem reset_phase : Engine.reset.phase = .idle := rfl
@[simp] theorem reset_err : Engine.reset.err = none := rfl

@[simp] theorem raiseFault_limb (c : FaultCode) (e : Engine) (i : Nat) : (raiseFault c e).1.limb i = e.limb i := rfl
@[simp] theorem raiseFault_cout (c : FaultCode) (e : Engine) : (raiseFault c e).1.cout = e.cout := rfl
@[simp] theorem raiseFault_mode (c : FaultCode) (e : Engine) : (raiseFault c e).1.mode = e.mode := rfl
@[simp] theorem raiseFault_phase (c : FaultCode) (e : Engine) : (raiseFault c e).1.phase = .fault := rfl
@[simp] theorem raiseFault_err (c : FaultCode) (e : Engine) : (raiseFault c e).1.err = some c := rfl
@[simp] theorem raiseFault_response (c : FaultCode) (e : Engine) : (raiseFault c e).2 = ⟨c.status, 0⟩ := rfl

@[simp] theorem respondOk_engine (d : Word) (e : Engine) : (respondOk d e).1 = e := rfl
@[simp] theorem respondOk_response (d : Word) (e : Engine) : (respondOk d e).2 = ⟨.ok, d⟩ := rfl
@[simp] theorem ignoreFaulted_engine (e : Engine) : (ignoreFaulted e).1 = e := rfl
@[simp] theorem ignoreFaulted_response (e : Engine) : (ignoreFaulted e).2 = ⟨.eFlt, 0⟩ := rfl

@[simp] theorem resetEngine_engine (s : State) : (resetEngine s).engine = Engine.reset := rfl
@[simp] theorem resetEngine_pending (s : State) : (resetEngine s).pending = s.pending := rfl
@[simp] theorem resetEngine_responses (s : State) : (resetEngine s).responses = s.responses := rfl
@[simp] theorem submit_engine (x : Input) (s : State) : (submit x s).engine = s.engine := rfl
@[simp] theorem submit_pending (x : Input) (s : State) : (submit x s).pending = s.pending ++ [x] := rfl
@[simp] theorem submit_responses (x : Input) (s : State) : (submit x s).responses = s.responses := rfl
@[simp] theorem placeNext_engine (c : CmdWord) (d : Word) (s : State) : (placeNext c d s).engine = s.engine := rfl
@[simp] theorem placeNext_pending (c : CmdWord) (d : Word) (s : State) :
    (placeNext c d s).pending = .request c d :: s.pending := rfl
@[simp] theorem placeNext_responses (c : CmdWord) (d : Word) (s : State) :
    (placeNext c d s).responses = s.responses := rfl

end Sys2Proof.Machine
end

