-- ==== Sys2Proof/Laws/Exec.lean ====
section
/-! SUPPORT. What a command can do, said once: every command is one transaction over the common front end, the front end
has four outcomes, and ACC and NORM have two more. Claims about `exec` cite these and unfold nothing. -/

namespace Sys2Proof.Machine

/-- The range check of each command (R153). -/
def rangeOf : Instr → Engine → Bool
  | .acc v p => rowInRange v p
  | .rdt v p i => fun e => rowInRange v p e && limbInRange i e
  | .unpk j => digitInRange j
  | .rdl i => limbInRange i
  | .wrl i _ => limbInRange i
  | .init _ => anyOperands
  | .norm => anyOperands
  | .rds => anyOperands
  | .rdc => anyOperands

/-- What each command does once its checks have passed. -/
def bodyOf : Instr → Engine → Engine × Response
  | .init m => fun e => respondOk 0 (beginCall m e)
  | .acc v p => accumulateRow v p
  | .norm => normalizeLimbs
  | .unpk j => fun e => respondOk (zext64 (digitValue e j)) e
  | .rdl i => fun e => respondOk (e.limb i) e
  | .wrl i data => fun e => respondOk 0 (e.setLimb i data)
  | .rdt v p i => fun e => respondOk (zext64 (tableWord e.mode v p i)) e
  | .rds => fun e => respondOk e.statusWord e
  | .rdc => fun e => respondOk e.cout e

/-- The engine and the response a command leaves. -/
def answer (i : Instr) (e : Engine) : Engine × Response := frontEnd i.opcode (rangeOf i) (bodyOf i) e

/-- Every command is one transaction. -/
theorem exec_eq (i : Instr) (s : State) : exec i s = transact (answer i) s := by cases i <;> rfl

theorem transact_eq (f : Engine → Engine × Response) (s : State) : transact f s =
    .next { engine := (f s.engine).1, pending := s.pending, responses := s.responses ++ [(f s.engine).2] } := rfl

/-- The state after a command, whole. -/
theorem exec_next (i : Instr) (s : State) : exec i s =
    .next { engine := (answer i s.engine).1, pending := s.pending,
            responses := s.responses ++ [(answer i s.engine).2] } := by rw [exec_eq, transact_eq]

/-- The only next state of a command. -/
theorem exec_next_inv {i : Instr} {s t : State} (h : exec i s = .next t) :
    t.engine = (answer i s.engine).1 ∧ t.pending = s.pending ∧
      t.responses = s.responses ++ [(answer i s.engine).2] := by
  rw [exec_next] at h; cases h; exact ⟨rfl, rfl, rfl⟩

/-- The response of a command, from the log of responses. -/
theorem answered_response {i : Instr} {s t : State} {r : Response} (h : exec i s = .next t) (ha : Answered r s t) :
    r = (answer i s.engine).2 := by
  have := (exec_next_inv h).2.2
  rw [ha.1] at this
  simpa using this

/-! ### The outcomes of the front end (R156) -/

/-- In FAULT a command other than INIT and RDS is ignored. -/
theorem answer_fault (i : Instr) (e : Engine) (hp : e.phase = .fault) (ha : admits i.opcode .fault = false) :
    answer i e = ignoreFaulted e := by simp [answer, frontEnd, hp, ha]

/-- Outside FAULT a command not admitted faults. -/
theorem answer_notAdmitted (i : Instr) (e : Engine) (hp : e.phase ≠ .fault)
    (ha : admits i.opcode e.phase = false) : answer i e = raiseFault .eSeq e := by simp [answer, frontEnd, hp, ha]

/-- An admitted command out of range faults. -/
theorem answer_outOfRange (i : Instr) (e : Engine) (hp : e.phase ≠ .fault) (ha : admits i.opcode e.phase = true)
    (hr : rangeOf i e = false) : answer i e = raiseFault .eIdx e := by simp [answer, frontEnd, hp, ha, hr]

/-- An admitted command in range does its body. -/
theorem answer_body (i : Instr) (e : Engine) (ha : admits i.opcode e.phase = true) (hr : rangeOf i e = true) :
    answer i e = bodyOf i e := by
  by_cases hp : e.phase = .fault
  · rw [hp] at ha; simp [answer, frontEnd, hp, ha]
  · simp [answer, frontEnd, hp, ha, hr]

/-- INIT and RDS have no operand to check. -/
theorem rangeOf_always (i : Instr) (e : Engine) (ha : admits i.opcode .fault = true) : rangeOf i e = true := by
  cases i <;> first | rfl | (simp [Instr.opcode, admits] at ha)

/-- Every command ends in one of the four. -/
theorem answer_cases (i : Instr) (e : Engine) :
    (e.phase = .fault ∧ admits i.opcode .fault = false ∧ answer i e = ignoreFaulted e) ∨
    (e.phase ≠ .fault ∧ admits i.opcode e.phase = false ∧ answer i e = raiseFault .eSeq e) ∨
    (e.phase ≠ .fault ∧ admits i.opcode e.phase = true ∧ rangeOf i e = false ∧ answer i e = raiseFault .eIdx e) ∨
    (admits i.opcode e.phase = true ∧ rangeOf i e = true ∧ answer i e = bodyOf i e) := by
  by_cases hp : e.phase = .fault
  · cases ha : admits i.opcode .fault with
    | false => exact .inl ⟨hp, rfl, answer_fault i e hp ha⟩
    | true =>
      have hr := rangeOf_always i e ha
      rw [← hp] at ha
      exact .inr (.inr (.inr ⟨ha, hr, answer_body i e ha hr⟩))
  · cases ha : admits i.opcode e.phase with
    | false => exact .inr (.inl ⟨hp, rfl, answer_notAdmitted i e hp ha⟩)
    | true =>
      cases hr : rangeOf i e with
      | false => exact .inr (.inr (.inl ⟨hp, rfl, rfl, answer_outOfRange i e hp ha hr⟩))
      | true => exact .inr (.inr (.inr ⟨rfl, rfl, answer_body i e ha hr⟩))

/-! ### The range checks as inequalities (R153) -/

theorem rowInRange_iff (v p : Nat) (e : Engine) :
    rowInRange v p e = true ↔ v < e.mode.params.V ∧ p < e.mode.params.P := by
  simp [rowInRange, Engine.params]
theorem limbInRange_iff (i : Nat) (e : Engine) : limbInRange i e = true ↔ i < e.mode.params.n := by
  simp [limbInRange, Engine.params]
theorem digitInRange_iff (j : Nat) (e : Engine) :
    digitInRange j e = true ↔ j < e.mode.params.n * e.mode.params.k := by
  simp [digitInRange, Engine.params, Params.digits]
theorem rowInRange_false_iff (v p : Nat) (e : Engine) :
    rowInRange v p e = false ↔ e.mode.params.V ≤ v ∨ e.mode.params.P ≤ p := by
  rw [← Bool.not_eq_true, rowInRange_iff]; omega
theorem limbInRange_false_iff (i : Nat) (e : Engine) : limbInRange i e = false ↔ e.mode.params.n ≤ i := by
  rw [← Bool.not_eq_true, limbInRange_iff]; omega
theorem digitInRange_false_iff (j : Nat) (e : Engine) :
    digitInRange j e = false ↔ e.mode.params.n * e.mode.params.k ≤ j := by
  rw [← Bool.not_eq_true, digitInRange_iff]; omega

/-! ### The outcomes as claims state them -/

/-- A command whose engine answer is a fault has faulted (R157). -/
theorem exec_faulted {c : FaultCode} {i : Instr} {s : State} (h : answer i s.engine = raiseFault c s.engine) :
    ∃ t, exec i s = .next t ∧ Faulted c s t := by
  refine ⟨_, exec_next i s, ?_⟩
  rw [h]
  exact ⟨rfl, rfl, ⟨rfl, rfl⟩, fun i _ => rfl, rfl, rfl⟩

/-- A command whose engine answer is `E_FLT` was ignored (R155). -/
theorem exec_ignored {i : Instr} {s : State} (h : answer i s.engine = ignoreFaulted s.engine) :
    ∃ t, exec i s = .next t ∧ Ignored s t := by
  refine ⟨_, exec_next i s, ?_⟩
  rw [h]
  exact ⟨⟨rfl, rfl⟩, fun i _ => rfl, rfl, rfl, rfl, rfl⟩

/-- A command that only answers has changed nothing (R39). -/
theorem exec_readOnly {d : Word} {i : Instr} {s : State} (h : answer i s.engine = respondOk d s.engine) :
    ∃ t, exec i s = .next t ∧ ReadOnly d s t := by
  refine ⟨_, exec_next i s, ?_⟩
  rw [h]
  exact ⟨⟨rfl, rfl⟩, fun i _ => rfl, rfl, rfl, rfl, rfl⟩

/-! ### ACC (R90) -/

theorem laneSums_getElem (v p : Nat) (e : Engine) (i : Nat) (hi : i < e.params.n) :
    (laneSums v p e).getD i 0 = (e.limb i).toNat + tableWord e.mode v p i := by
  simp [laneSums, Engine.lanes, tableRow, List.getD_eq_getElem?_getD, hi]

@[simp] theorem length_laneSums (v p : Nat) (e : Engine) : (laneSums v p e).length = e.params.n := by
  simp [laneSums, Engine.params]

theorem laneSums_any (v p : Nat) (e : Engine) : (laneSums v p e).any (wordLimit ≤ ·) = true ↔
    ∃ i < e.params.n, wordLimit ≤ (e.limb i).toNat + tableWord e.mode v p i := by
  rw [List.any_eq_true]
  constructor
  · rintro ⟨a, ha, hle⟩
    obtain ⟨i, hi, rfl⟩ := List.getElem_of_mem ha
    have hi' : i < e.params.n := by simpa using hi
    refine ⟨i, hi', ?_⟩
    rw [← laneSums_getElem v p e i hi', List.getD_eq_getElem?_getD, List.getElem?_eq_getElem hi]
    simpa using hle
  · rintro ⟨i, hi, hle⟩
    have hi' : i < (laneSums v p e).length := by simpa using hi
    refine ⟨(laneSums v p e)[i], List.getElem_mem hi', ?_⟩
    rw [← laneSums_getElem v p e i hi, List.getD_eq_getElem?_getD, List.getElem?_eq_getElem hi'] at hle
    simpa using hle

/-- ACC when some lane reaches `2^64`: a fault, no limb written. -/
theorem accumulateRow_overflow (v p : Nat) (e : Engine)
    (h : ∃ i < e.params.n, wordLimit ≤ (e.limb i).toNat + tableWord e.mode v p i) :
    accumulateRow v p e = raiseFault .eOvf e := by
  rw [accumulateRow, if_pos ((laneSums_any v p e).mpr h)]

/-- ACC when no lane does: every limb below `n` is its exact sum. -/
theorem accumulateRow_ok (v p : Nat) (e : Engine)
    (h : ∀ i < e.params.n, (e.limb i).toNat + tableWord e.mode v p i < wordLimit) :
    accumulateRow v p e = respondOk 0 (e.setLanes (laneSums v p e)) := by
  rw [accumulateRow, if_neg]
  rw [laneSums_any]
  rintro ⟨i, hi, hle⟩
  exact absurd hle (Nat.not_le.mpr (h i hi))

theorem accumulated_limb (v p : Nat) (e : Engine) (i : Nat) (hi : i < e.params.n)
    (h : (e.limb i).toNat + tableWord e.mode v p i < wordLimit) :
    ((e.setLanes (laneSums v p e)).limb i).toNat = (e.limb i).toNat + tableWord e.mode v p i := by
  have hn : i < NMAX := Nat.lt_of_lt_of_le hi (limb_count_le _)
  rw [limb_setLanes _ _ _ hn, if_pos (by simpa using hi), laneSums_getElem v p e i hi]
  exact Nat.mod_eq_of_lt h

/-! ### NORM (R100) -/

/-- The carry into limb `i`: `c_0 = 0`, `c_{i+1} = (x[i] + c_i) div R`. -/
def carryInto (e : Engine) : Nat → Nat
  | 0 => 0
  | i + 1 => ((e.limb i).toNat + carryInto e i) / e.params.R

theorem lanes_getD (e : Engine) (n i : Nat) (hi : i < n) : (e.lanes n).getD i 0 = (e.limb i).toNat := by
  simp [Engine.lanes, List.getD_eq_getElem?_getD, hi]

/-- The reduced limbs of a NORM. -/
def reducedLanes (e : Engine) : List Nat :=
  (List.range e.params.n).map fun i => ((e.limb i).toNat + carryInto e i) % e.params.R

@[simp] theorem length_reducedLanes (e : Engine) : (reducedLanes e).length = e.params.n := by simp [reducedLanes]

/-- NORM when some sum reaches `2^64`: a fault, no limb written. -/
theorem normalizeLimbs_overflow (e : Engine)
    (h : ∃ i < e.params.n, wordLimit ≤ (e.limb i).toNat + carryInto e i) :
    normalizeLimbs e = raiseFault .eOvf e := by
  have := carryPass_none e.params.R (e.lanes e.params.n) (carryInto e)
    (fun i hi => by rw [lanes_getD e _ i (by simpa using hi)]; rfl)
    (by
      obtain ⟨i, hi, hle⟩ := h
      exact ⟨i, by simpa using hi, by rwa [lanes_getD e _ i hi]⟩)
  rw [normalizeLimbs, show (0 : Nat) = carryInto e 0 from rfl, this]

/-- NORM when no sum does: the reduced limbs, the last carry in `COUT`, phase NORMD. -/
theorem normalizeLimbs_ok (e : Engine)
    (h : ∀ i < e.params.n, (e.limb i).toNat + carryInto e i < wordLimit) :
    normalizeLimbs e = respondOk 0 { e.setLanes (reducedLanes e) with
      cout := BitVec.ofNat 64 (carryInto e e.params.n), phase := .normd } := by
  have := carryPass_some e.params.R (e.lanes e.params.n) (carryInto e)
    (fun i hi => by rw [lanes_getD e _ i (by simpa using hi)]; rfl)
    (fun i hi => by rw [lanes_getD e _ i (by simpa using hi)]; exact h i (by simpa using hi))
  rw [normalizeLimbs, show (0 : Nat) = carryInto e 0 from rfl, this]
  have hl : (List.range e.params.n).map
      (fun i => ((e.lanes e.params.n).getD i 0 + carryInto e i) % e.params.R) = reducedLanes e :=
    List.map_congr_left fun i hi => by rw [lanes_getD e _ i (by simpa using hi)]
  simp only [length_lanes, hl]

theorem reduced_limb (e : Engine) (i : Nat) (hi : i < e.params.n) :
    ((e.setLanes (reducedLanes e)).limb i).toNat = ((e.limb i).toNat + carryInto e i) % e.params.R := by
  have hn : i < NMAX := Nat.lt_of_lt_of_le hi (limb_count_le _)
  have hR : ((e.limb i).toNat + carryInto e i) % e.params.R < 2 ^ 64 :=
    Nat.lt_of_lt_of_le (Nat.mod_lt _ (radix_pos e.mode)) (Nat.le_trans (radix_le e.mode) (by decide))
  have hg : (reducedLanes e).getD i 0 = ((e.limb i).toNat + carryInto e i) % e.params.R := by
    simp [reducedLanes, List.getD_eq_getElem?_getD, hi]
  rw [limb_setLanes _ _ _ hn, if_pos (by simpa using hi), hg, BitVec.toNat_ofNat, Nat.mod_eq_of_lt hR]

/-- Every carry is at most `(2^64-1) div R` while no sum overflows (R14, R104). -/
theorem carryInto_le (e : Engine) (i : Nat)
    (h : ∀ j < i, (e.limb j).toNat + carryInto e j < wordLimit) :
    carryInto e i ≤ (wordLimit - 1) / e.params.R := by
  cases i with
  | zero => exact Nat.zero_le _
  | succ i => exact Nat.div_le_div_right (Nat.le_sub_one_of_lt (h i (Nat.lt_succ_self i)))

theorem carryInto_lt_word (e : Engine) (i : Nat)
    (h : ∀ j < i, (e.limb j).toNat + carryInto e j < wordLimit) : carryInto e i < 2 ^ 64 :=
  Nat.lt_of_le_of_lt (carryInto_le e i h) (Nat.lt_of_le_of_lt (Nat.div_le_self _ _) (by decide))

/-- Limbs above the ones a write names are kept. -/
theorem setLanes_upper (e : Engine) (q : List Nat) (i : Nat) (h : q.length ≤ i) (hn : i < NMAX) :
    (e.setLanes q).limb i = e.limb i := by rw [limb_setLanes _ _ _ hn, if_neg (Nat.not_lt.mpr h)]

/-- Each of the bodies: a completed command or the overflow fault of ACC and NORM. -/
theorem bodyOf_status (i : Instr) (e : Engine) :
    (bodyOf i e).2.status = .ok ∨ ((i.opcode = .acc ∨ i.opcode = .norm) ∧ bodyOf i e = raiseFault .eOvf e) := by
  cases i with
  | acc v p =>
    by_cases h : (laneSums v p e).any (wordLimit ≤ ·) = true
    · exact .inr ⟨.inl rfl, by simp only [bodyOf]; rw [accumulateRow, if_pos h]⟩
    · exact .inl (by simp only [bodyOf]; rw [accumulateRow, if_neg h]; rfl)
  | norm =>
    by_cases h : ∃ i < e.params.n, wordLimit ≤ (e.limb i).toNat + carryInto e i
    · exact .inr ⟨.inr rfl, normalizeLimbs_overflow e h⟩
    · refine .inl ?_
      simp only [bodyOf]
      rw [normalizeLimbs_ok e fun i hi => Nat.lt_of_not_le fun hle => h ⟨i, hi, hle⟩]; rfl
  | init _ | unpk _ | rdl _ | wrl _ _ | rdt _ _ _ | rds | rdc => exact .inl rfl

end Sys2Proof.Machine
end

