-- ==== Sys2Proof/Laws/Step.lean ====
section
/-! SUPPORT. What a step can do, said once, and what `issue` does to a machine with nothing outstanding. -/

namespace Sys2Proof.Machine

/-! ### One step (R41, R156) -/

theorem step_idle (s : State) (h : s.pending = []) : step s = .next s := by
  simp [step, takeInput, h]

theorem step_reset (s : State) (rest : List Input) (h : s.pending = .reset :: rest) :
    step s = .next { engine := Engine.reset, pending := rest, responses := s.responses } := by
  simp [step, takeInput, h, resetEngine]

theorem step_command (s : State) (w : CmdWord) (wd : Word) (rest : List Input) (i : Instr)
    (h : s.pending = .request w wd :: rest) (hd : decode w wd = .ok i) :
    step s = exec i { s with pending := rest } := by
  simp [step, takeInput, h, hd]

theorem step_illFormed (s : State) (w : CmdWord) (wd : Word) (rest : List Input) (e : DecodeError)
    (h : s.pending = .request w wd :: rest) (hd : decode w wd = .error e) :
    step s = .next { engine := (rejectWord s.engine).1, pending := rest,
                     responses := s.responses ++ [(rejectWord s.engine).2] } := by
  simp [step, takeInput, h, hd, transact]

theorem rejectWord_fault (e : Engine) (h : e.phase = .fault) : rejectWord e = ignoreFaulted e := by
  simp [rejectWord, h]

theorem rejectWord_running (e : Engine) (h : e.phase ≠ .fault) : rejectWord e = raiseFault .eOpc e := by
  simp [rejectWord, h]

/-- Every step is one of these four. -/
theorem step_cases (s : State) :
    (s.pending = [] ∧ step s = .next s) ∨
    (∃ rest, s.pending = .reset :: rest ∧
      step s = .next { engine := Engine.reset, pending := rest, responses := s.responses }) ∨
    (∃ w wd rest i, s.pending = .request w wd :: rest ∧ decode w wd = .ok i ∧
      step s = .next { engine := (answer i s.engine).1, pending := rest,
                       responses := s.responses ++ [(answer i s.engine).2] }) ∨
    (∃ w wd rest e, s.pending = .request w wd :: rest ∧ decode w wd = .error e ∧
      step s = .next { engine := (rejectWord s.engine).1, pending := rest,
                       responses := s.responses ++ [(rejectWord s.engine).2] }) := by
  cases hp : s.pending with
  | nil => exact .inl ⟨rfl, step_idle s hp⟩
  | cons x rest =>
    cases x with
    | reset => exact .inr (.inl ⟨rest, rfl, step_reset s rest hp⟩)
    | request w wd =>
      cases hd : decode w wd with
      | ok i =>
        refine .inr (.inr (.inl ⟨w, wd, rest, i, rfl, hd, ?_⟩))
        rw [step_command s w wd rest i hp hd, exec_next]
      | error e => exact .inr (.inr (.inr ⟨w, wd, rest, e, rfl, hd, step_illFormed s w wd rest e hp hd⟩))

/-! ### Issuing a command -/

/-- Issuing a command to a machine with nothing outstanding is one transaction of the engine; the hypothesis is the round
trip of the command's word. -/
theorem issue_eq (i : Instr) (s : State) (hp : s.pending = [])
    (hd : decode (encode i).1 (encode i).2 = .ok i) :
    issue i s = if (answer i s.engine).2.status = .ok then
      some ((answer i s.engine).2.rdata,
        { engine := (answer i s.engine).1, pending := [], responses := s.responses ++ [(answer i s.engine).2] })
    else none := by
  have hpend : (submit (.request (encode i).1 (encode i).2) s).pending = [.request (encode i).1 (encode i).2] := by
    simp [hp]
  unfold issue
  rw [step_command _ _ _ [] i hpend hd, exec_next]
  simp

/-- Issuing a list of commands is issuing its two parts in turn. -/
theorem issueAll_append (l l' : List Instr) (s : State) : issueAll (l ++ l') s =
    (issueAll l s).bind fun q => (issueAll l' q.2).map fun q' => (q.1 ++ q'.1, q'.2) := by
  induction l generalizing s with
  | nil => cases h : issueAll l' s <;> simp [issueAll, h]
  | cons i l ih =>
    cases h : issue i s with
    | none => simp [issueAll, h]
    | some q =>
      simp only [List.cons_append, issueAll, h, ih]
      cases h1 : issueAll l q.2 with
      | none => simp
      | some q1 =>
        simp only [Option.bind_some]
        cases h2 : issueAll l' q1.2 <;> simp

end Sys2Proof.Machine
end

