-- ==== Sys2Proof/Laws/Calls.lean ====
section
/-! SUPPORT. Sequences of commands issued by a host: a list of ACC commands, a list of reads, and NORM, each said once
over the engine. `RoundTrip i` is the round trip of one command's word, a claim of its own; every lemma that issues a
command takes it as a premise. -/

namespace Sys2Proof.Machine

/-- The word of the command decodes to the command. -/
abbrev RoundTrip (i : Instr) : Prop := decode (encode i).1 (encode i).2 = .ok i

/-! ### One command, completed -/

/-- INIT completes in every phase. -/
theorem answer_init (m : Mode) (e : Engine) : answer (.init m) e = respondOk 0 (beginCall m e) :=
  answer_body (.init m) e rfl rfl

/-- ACC in ACCUM, in range, no lane overflowing. -/
theorem answer_acc (e : Engine) (v p : Nat) (hp : e.phase = .accum) (hv : v < e.mode.params.V)
    (hpp : p < e.mode.params.P) (h : ∀ i < e.mode.params.n, (e.limb i).toNat + tableWord e.mode v p i < wordLimit) :
    answer (.acc v p) e = respondOk 0 (e.setLanes (laneSums v p e)) := by
  rw [answer_body (.acc v p) e (by rw [hp]; rfl) ((rowInRange_iff _ _ _).mpr ⟨hv, hpp⟩)]
  exact accumulateRow_ok v p e h

/-- An ACC in ACCUM that completed was in range and overflowed no lane. -/
theorem acc_ok_inv (e : Engine) (v p : Nat) (hp : e.phase = .accum) (h : (answer (.acc v p) e).2.status = .ok) :
    v < e.mode.params.V ∧ p < e.mode.params.P ∧
      ∀ i < e.mode.params.n, (e.limb i).toNat + tableWord e.mode v p i < wordLimit := by
  cases hr : rowInRange v p e with
  | false => rw [answer_outOfRange (.acc v p) e (by rw [hp]; decide) (by rw [hp]; rfl) hr] at h; cases h
  | true =>
    obtain ⟨a, b⟩ := (rowInRange_iff _ _ _).mp hr
    refine ⟨a, b, ?_⟩
    by_contra ho
    push Not at ho
    rw [answer_body (.acc v p) e (by rw [hp]; rfl) hr] at h
    simp only [bodyOf, accumulateRow_overflow v p e ho] at h
    cases h

/-- NORM in ACCUM, no sum overflowing. -/
theorem answer_norm (e : Engine) (hp : e.phase = .accum)
    (h : ∀ i < e.mode.params.n, (e.limb i).toNat + carryInto e i < wordLimit) :
    answer .norm e = respondOk 0 { e.setLanes (reducedLanes e) with
      cout := BitVec.ofNat 64 (carryInto e e.mode.params.n), phase := .normd } := by
  rw [answer_body .norm _ (by rw [hp]; rfl) rfl]
  exact normalizeLimbs_ok e h

/-- A NORM in ACCUM that completed overflowed no sum. -/
theorem norm_ok_inv (e : Engine) (hp : e.phase = .accum) (h : (answer .norm e).2.status = .ok) :
    ∀ i < e.mode.params.n, (e.limb i).toNat + carryInto e i < wordLimit := by
  by_contra ho
  push Not at ho
  rw [answer_body .norm _ (by rw [hp]; rfl) rfl] at h
  simp only [bodyOf, normalizeLimbs_overflow e ho] at h
  cases h

/-- UNPK in NORMD, in range. -/
theorem answer_unpk (e : Engine) (j : Nat) (hp : e.phase = .normd) (hj : j < e.mode.params.n * e.mode.params.k) :
    answer (.unpk j) e = respondOk (zext64 (digitValue e j)) e :=
  answer_body (.unpk j) e (by rw [hp]; rfl) ((digitInRange_iff _ _).mpr hj)

/-- A command that completes, issued. -/
theorem issue_ok {i : Instr} {s : State} {d : Word} {e : Engine} (hp : s.pending = []) (hd : RoundTrip i)
    (h : answer i s.engine = respondOk d e) :
    issue i s = some (d, { engine := e, pending := [], responses := s.responses ++ [⟨.ok, d⟩] }) := by
  rw [issue_eq i s hp hd, h]; rfl

/-! ### Lists of commands -/

/-- Commands that only read, issued one after another: their answers, and the engine untouched. -/
theorem issueAll_reads (l : List Instr) (f : Instr → Word) (s : State) (hp : s.pending = [])
    (hd : ∀ i ∈ l, RoundTrip i) (h : ∀ i ∈ l, answer i s.engine = respondOk (f i) s.engine) :
    issueAll l s = some (l.map f,
      { engine := s.engine, pending := [], responses := s.responses ++ l.map fun i => ⟨.ok, f i⟩ }) := by
  induction l generalizing s with
  | nil => cases s; simp_all [issueAll]
  | cons i l ih =>
    simp only [issueAll, issue_ok hp (hd i (by simp)) (h i (by simp))]
    rw [ih { engine := s.engine, pending := [], responses := s.responses ++ [⟨.ok, f i⟩] } rfl
      (fun i hi => hd i (by simp [hi])) (fun i hi => h i (by simp [hi]))]
    simp

/-- When a list of ACC commands completes: every row in range, and no lane's total sum at `2^64`. -/
theorem accs_complete_iff (rows : List (Nat × Nat)) (s : State) (hpend : s.pending = []) (hp : s.engine.phase = .accum)
    (hd : ∀ q ∈ rows, RoundTrip (.acc q.1 q.2)) :
    (∃ q, issueAll (rows.map fun q => .acc q.1 q.2) s = some q) ↔
      ((∀ q ∈ rows, q.1 < s.engine.mode.params.V ∧ q.2 < s.engine.mode.params.P) ∧
       ∀ i < s.engine.mode.params.n,
        (s.engine.limb i).toNat + (rows.map fun q => tableWord s.engine.mode q.1 q.2 i).sum < wordLimit) := by
  induction rows generalizing s with
  | nil => simp [issueAll]; intro i hi; exact (s.engine.limb i).isLt
  | cons q rows ih =>
    obtain ⟨v, p⟩ := q
    simp only [List.map_cons, issueAll]
    rw [issue_eq _ s hpend (hd (v, p) (by simp))]
    by_cases hst : (answer (.acc v p) s.engine).2.status = .ok
    · obtain ⟨a, b, c⟩ := acc_ok_inv _ _ _ hp hst
      have hans := answer_acc s.engine v p hp a b c
      rw [if_pos hst]
      have hih := ih ⟨(answer (.acc v p) s.engine).1, [], s.responses ++ [(answer (.acc v p) s.engine).2]⟩ rfl
        (by rw [hans]; exact hp) (fun q hq => hd q (by simp [hq]))
      have hm : (answer (.acc v p) s.engine).1.mode = s.engine.mode := by rw [hans]; rfl
      have hx : ∀ i < s.engine.mode.params.n, ((answer (.acc v p) s.engine).1.limb i).toNat =
          (s.engine.limb i).toNat + tableWord s.engine.mode v p i := by
        intro i hi; rw [hans]; exact accumulated_limb v p s.engine i hi (c i hi)
      simp only [hm] at hih
      constructor
      · intro ⟨q, hq⟩
        dsimp only at hq
        obtain ⟨h1, h2⟩ := hih.mp (by
          revert hq
          cases issueAll (rows.map fun q => Instr.acc q.1 q.2)
            ⟨(answer (.acc v p) s.engine).1, [], s.responses ++ [(answer (.acc v p) s.engine).2]⟩ with
          | none => intro hq; cases hq
          | some q' => intro _; exact ⟨q', rfl⟩)
        refine ⟨fun q hq => ?_, fun i hi => ?_⟩
        · rcases List.mem_cons.mp hq with rfl | hq
          · exact ⟨a, b⟩
          · exact h1 q hq
        · have := h2 i hi
          rw [hx i hi] at this
          simp only [List.sum_cons]; omega
      · intro ⟨h1, h2⟩
        obtain ⟨q', hq'⟩ := hih.mpr ⟨fun q hq => h1 q (by simp [hq]), fun i hi => by
          have := h2 i hi
          rw [hx i hi]
          simp only [List.sum_cons] at this; omega⟩
        dsimp only; rw [hq']; exact ⟨_, rfl⟩
    · rw [if_neg hst]
      refine ⟨fun ⟨q, hq⟩ => (by cases hq), fun ⟨h1, h2⟩ => absurd ?_ hst⟩
      have h0 := h1 (v, p) (by simp)
      rw [answer_acc s.engine v p hp h0.1 h0.2 fun i hi => by
        have := h2 i hi
        simp only [List.sum_cons] at this; omega]
      rfl

/-- What a list of ACC commands that completed leaves: every lane its total sum, all else as before. -/
theorem accs_result (rows : List (Nat × Nat)) (s : State) (hpend : s.pending = []) (hp : s.engine.phase = .accum)
    (hd : ∀ q ∈ rows, RoundTrip (.acc q.1 q.2)) (ds : List Word) (t : State)
    (h : issueAll (rows.map fun q => .acc q.1 q.2) s = some (ds, t)) :
    t.pending = [] ∧ t.engine.phase = .accum ∧ t.engine.mode = s.engine.mode ∧ t.engine.cout = s.engine.cout ∧
    t.engine.err = s.engine.err ∧
    (∀ i < s.engine.mode.params.n, (t.engine.limb i).toNat =
      (s.engine.limb i).toNat + (rows.map fun q => tableWord s.engine.mode q.1 q.2 i).sum) ∧
    (∀ i, s.engine.mode.params.n ≤ i → i < NMAX → t.engine.limb i = s.engine.limb i) := by
  induction rows generalizing s ds with
  | nil =>
    simp only [List.map_nil, issueAll, Option.some.injEq, Prod.mk.injEq] at h
    obtain ⟨-, rfl⟩ := h; simp [hp, hpend]
  | cons q rows ih =>
    obtain ⟨v, p⟩ := q
    simp only [List.map_cons, issueAll] at h
    rw [issue_eq _ s hpend (hd (v, p) (by simp))] at h
    by_cases hst : (answer (.acc v p) s.engine).2.status = .ok
    · obtain ⟨a, b, c⟩ := acc_ok_inv _ _ _ hp hst
      have hans := answer_acc s.engine v p hp a b c
      rw [if_pos hst] at h
      simp only at h
      cases hh : issueAll (rows.map fun q => Instr.acc q.1 q.2)
          ⟨(answer (.acc v p) s.engine).1, [], s.responses ++ [(answer (.acc v p) s.engine).2]⟩ with
      | none => rw [hh] at h; cases h
      | some q' =>
        rw [hh] at h
        simp only [Option.some.injEq, Prod.mk.injEq] at h
        obtain ⟨-, rfl⟩ := h
        obtain ⟨i1, i2, i3, i4, i5, i6, i7⟩ := ih _ rfl (by rw [hans]; exact hp)
          (fun q hq => hd q (by simp [hq])) q'.1 hh
        simp only at i3 i4 i5 i6 i7
        have hm : (answer (.acc v p) s.engine).1.mode = s.engine.mode := by rw [hans]; rfl
        rw [hm] at i3 i6 i7
        refine ⟨i1, i2, i3, by rw [i4, hans]; rfl, by rw [i5, hans]; rfl, ?_, ?_⟩
        · intro i hi
          have hx := accumulated_limb v p s.engine i hi (c i hi)
          rw [i6 i hi, hans, respondOk_engine, hx]
          simp only [List.map_cons, List.sum_cons]
          omega
        · intro i hi hn
          rw [i7 i hi hn, hans, respondOk_engine, setLanes_upper _ _ i (by rw [length_laneSums]; exact hi) hn]
    · rw [if_neg hst] at h; cases h

/-! ### Digits -/

/-- The digit UNPK reads, when the limbs are the radix expansion of `S`: digit `j` of `S` in base `b`, most significant
first (R110, R113). -/
theorem digitValue_eq (e : Engine) (S j : Nat) (hj : j < e.mode.params.n * e.mode.params.k)
    (hx : ∀ i < e.mode.params.n, (e.limb i).toNat = S / e.mode.params.R ^ i % e.mode.params.R) :
    digitValue e j = S / e.mode.params.b ^ (e.mode.params.n * e.mode.params.k - 1 - j) % e.mode.params.b := by
  have hk := digits_per_limb_pos e.mode
  generalize hb : e.mode.params.b = b at *
  generalize hkk : e.mode.params.k = k at *
  generalize hn : e.mode.params.n = n at *
  have hq : j / k < n := by rwa [Nat.div_lt_iff_lt_mul hk]
  have hr := Nat.mod_lt j hk
  have hdm := Nat.div_add_mod j k
  have hR : e.mode.params.R = b ^ (k - 1 - j % k) * (b * b ^ (j % k)) := by
    rw [Params.R, hb, hkk, ← pow_succ', ← pow_add]; congr 1; omega
  have hexp : b ^ (n * k - 1 - j) = e.mode.params.R ^ (n - 1 - j / k) * b ^ (k - 1 - j % k) := by
    rw [Params.R, hb, hkk, ← pow_mul, ← pow_add]; congr 1
    obtain ⟨c, hc⟩ : ∃ c, n = j / k + 1 + c := ⟨n - (j / k + 1), by omega⟩
    rw [show n - 1 - j / k = c by omega]
    conv_lhs => rw [hc, add_mul, add_mul, one_mul, mul_comm (j / k) k]
    rw [mul_comm k c]; omega
  have hd : digitValue e j = (e.limb (n - 1 - j / k)).toNat / b ^ (k - 1 - j % k) % b := by
    simp only [digitValue, digitLimb, digitExponent, Engine.params, hb, hkk, hn]
  have hi : n - 1 - j / k < n :=
    Nat.lt_of_le_of_lt (Nat.sub_le _ _) (Nat.sub_lt (Nat.lt_of_le_of_lt (Nat.zero_le _) hq) Nat.one_pos)
  rw [hd, hx _ hi, hexp, ← Nat.div_div_eq_div_mul]
  conv_lhs => rw [hR]
  rw [Nat.mod_mul_right_div_self, Nat.mod_mul_right_mod, ← hR]

/-- The `D` digits of a number below `b^D`, most significant first, are zeros and then its ordinary expansion. -/
theorem digits_padded (b D S : Nat) (hb : 1 < b) (hS : S < b ^ D) :
    (List.range D).map (fun j => S / b ^ (D - 1 - j) % b) =
      List.replicate (D - (Nat.digits b S).length) 0 ++ (Nat.digits b S).reverse := by
  have hlen : (Nat.digits b S).length ≤ D := (Nat.digits_length_le_iff hb S).mpr hS
  have hD : ∀ j, S / b ^ j % b = (Nat.digits b S).getD j 0 := fun j => (Nat.getD_digits S j hb).symm
  refine List.ext_getElem (by simp; omega) fun j h1 h2 => ?_
  have hj : j < D := by simpa using h1
  simp only [List.getElem_map, List.getElem_range, hD, List.getElem_append, List.length_replicate,
    List.getElem_replicate, List.getElem_reverse, List.getD_eq_getElem?_getD]
  split
  · rw [List.getElem?_eq_none (by omega)]; rfl
  · rw [List.getElem?_eq_getElem (by omega)]
    simp only [Option.getD_some]; congr 1; omega

end Sys2Proof.Machine
end

