-- ==== Sys2Proof/Laws/Decode.lean ====
section
/-! SUPPORT. The command word in numbers: the fields as division and remainder, packing and unpacking, and when a row of
the opcode map accepts a word. With these a claim about words is linear arithmetic. -/

namespace Sys2Proof

/-! ### Fields (R61) -/

@[simp] theorem fieldsOf_op_toNat (w : CmdWord) : (fieldsOf w).op.toNat = w.toNat / 2 ^ 28 := by
  have := w.isLt
  simp only [fieldsOf, BitVec.extractLsb'_toNat, Nat.shiftRight_eq_div_pow]; omega
@[simp] theorem fieldsOf_z_toNat (w : CmdWord) : (fieldsOf w).z.toNat = w.toNat / 2 ^ 24 % 2 ^ 4 := by
  simp [fieldsOf, BitVec.extractLsb'_toNat, Nat.shiftRight_eq_div_pow]
@[simp] theorem fieldsOf_c_toNat (w : CmdWord) : (fieldsOf w).c.toNat = w.toNat / 2 ^ 16 % 2 ^ 8 := by
  simp [fieldsOf, BitVec.extractLsb'_toNat, Nat.shiftRight_eq_div_pow]
@[simp] theorem fieldsOf_b_toNat (w : CmdWord) : (fieldsOf w).b.toNat = w.toNat / 2 ^ 8 % 2 ^ 8 := by
  simp [fieldsOf, BitVec.extractLsb'_toNat, Nat.shiftRight_eq_div_pow]
@[simp] theorem fieldsOf_a_toNat (w : CmdWord) : (fieldsOf w).a.toNat = w.toNat % 2 ^ 8 := by
  simp [fieldsOf, BitVec.extractLsb'_toNat]

/-- `{OP, Z, C, B, A}` as a number (R61). -/
theorem word_toNat (f : Fields) : f.word.toNat =
    f.op.toNat * 2 ^ 28 + f.z.toNat * 2 ^ 24 + f.c.toNat * 2 ^ 16 + f.b.toNat * 2 ^ 8 + f.a.toNat := by
  have hz := f.z.isLt; have hc := f.c.isLt; have hb := f.b.isLt; have ha := f.a.isLt
  simp only [Fields.word, BitVec.toNat_append]
  rw [← Nat.shiftLeft_add_eq_or_of_lt hz, ← Nat.shiftLeft_add_eq_or_of_lt hc, ← Nat.shiftLeft_add_eq_or_of_lt hb,
    ← Nat.shiftLeft_add_eq_or_of_lt ha]
  simp only [Nat.shiftLeft_eq]; omega

/-- Unpacking a packed word gives the fields back: no bit is dropped. -/
theorem fieldsOf_word (f : Fields) : fieldsOf f.word = f := by
  have ho := f.op.isLt; have hz := f.z.isLt; have hc := f.c.isLt; have hb := f.b.isLt; have ha := f.a.isLt
  have h := word_toNat f
  have h1 := fieldsOf_op_toNat f.word; have h2 := fieldsOf_z_toNat f.word; have h3 := fieldsOf_c_toNat f.word
  have h4 := fieldsOf_b_toNat f.word; have h5 := fieldsOf_a_toNat f.word
  have e1 : (fieldsOf f.word).op = f.op := BitVec.eq_of_toNat_eq (by omega)
  have e2 : (fieldsOf f.word).z = f.z := BitVec.eq_of_toNat_eq (by omega)
  have e3 : (fieldsOf f.word).c = f.c := BitVec.eq_of_toNat_eq (by omega)
  have e4 : (fieldsOf f.word).b = f.b := BitVec.eq_of_toNat_eq (by omega)
  have e5 : (fieldsOf f.word).a = f.a := BitVec.eq_of_toNat_eq (by omega)
  rw [show fieldsOf f.word = ⟨(fieldsOf f.word).op, (fieldsOf f.word).z, (fieldsOf f.word).c, (fieldsOf f.word).b,
    (fieldsOf f.word).a⟩ from rfl, e1, e2, e3, e4, e5]

/-- Packing the fields of a word gives the word back. -/
theorem word_fieldsOf (w : CmdWord) : (fieldsOf w).word = w := by
  have := w.isLt
  refine BitVec.eq_of_toNat_eq ?_
  rw [word_toNat]; simp only [fieldsOf_op_toNat, fieldsOf_z_toNat, fieldsOf_c_toNat, fieldsOf_b_toNat, fieldsOf_a_toNat]
  omega

/-! ### Rows of the opcode map (R62) -/

/-- A mask of all the bits from `k` up keeps the multiple of `2^k` below the word. -/
theorem and_highMask (w : CmdWord) (k : Nat) : (w &&& BitVec.allOnes 32 <<< k).toNat = w.toNat / 2 ^ k * 2 ^ k := by
  have h : w &&& BitVec.allOnes 32 <<< k = (w >>> k) <<< k := by
    ext i hi
    simp only [BitVec.getElem_and, BitVec.getElem_shiftLeft, BitVec.getElem_allOnes, BitVec.getElem_ushiftRight]
    by_cases hk : i < k
    · simp [hk]
    · simp [hk, show k + (i - k) = i by omega, BitVec.getLsbD_eq_getElem hi]
  have hle : w.toNat / 2 ^ k * 2 ^ k < 2 ^ 32 := Nat.lt_of_le_of_lt (Nat.div_mul_le_self _ _) w.isLt
  rw [h, BitVec.toNat_shiftLeft, BitVec.toNat_ushiftRight, Nat.shiftRight_eq_div_pow, Nat.shiftLeft_eq,
    Nat.mod_eq_of_lt hle]

theorem and_highMask_eq (w pat : CmdWord) (k c : Nat) (hp : pat.toNat = c * 2 ^ k) :
    w &&& BitVec.allOnes 32 <<< k = pat ↔ w.toNat / 2 ^ k = c := by
  rw [← BitVec.toNat_inj, and_highMask, hp]
  exact ⟨fun h => Nat.eq_of_mul_eq_mul_right (Nat.two_pow_pos k) h, fun h => by rw [h]⟩

/-- The lowest operand-free bit of each command: the bits from here up are all fixed by its row (R62). -/
def Opcode.low : Opcode → Nat
  | .init => 2
  | .acc => 16
  | .norm => 0
  | .unpk => 8
  | .rdl => 8
  | .wrl => 8
  | .rdt => 24
  | .rds => 0
  | .rdc => 0

/-- A row accepts a word exactly when the bits above its operands are the row's (R62). -/
theorem accepts_iff (o : Opcode) (w : CmdWord) :
    o.row.accepts w = true ↔ w.toNat / 2 ^ o.low = o.op.toNat * 2 ^ (28 - o.low) := by
  have key := fun k c (hp : o.row.pat.toNat = c * 2 ^ k) => and_highMask_eq w o.row.pat k c hp
  have hm : o.row.mask = BitVec.allOnes 32 <<< o.low := by cases o <;> decide
  rw [OpcodeRow.accepts, beq_iff_eq, hm]
  exact key o.low _ (by cases o <;> decide)

/-- A word decodes to a command exactly when that command's row accepts it; no word is accepted by two rows. -/
theorem decode_ok_iff (w : CmdWord) (wd : Word) (i : Instr) :
    decode w wd = .ok i ↔ ∃ o : Opcode, o.row.accepts w = true ∧ i = o.build w wd := by
  have hop : ∀ o : Opcode, o.row.accepts w = true → w.toNat / 2 ^ 28 = o.op.toNat := by
    intro o h; rw [accepts_iff] at h
    cases o <;> simp [Opcode.low, Opcode.op] at h ⊢ <;> omega
  have inj : ∀ o o' : Opcode, o.op.toNat = o'.op.toNat → o = o' := by
    intro o o' h; cases o <;> cases o' <;> first | rfl | (exact absurd h (by decide))
  have mem : ∀ o : Opcode, o.row ∈ opcodeMap := by intro o; cases o <;> decide
  have row : ∀ o : Opcode, o.row.opcode = o := by intro o; cases o <;> rfl
  unfold decode
  cases hf : opcodeMap.find? (·.accepts w) with
  | none =>
    rw [List.find?_eq_none] at hf
    simp only [reduceCtorEq, false_iff, not_exists, not_and]
    intro o ho; exact absurd ho (hf _ (mem o))
  | some r =>
    have hr := List.find?_some hf
    obtain ⟨o, -, rfl⟩ := List.mem_map.mp (List.mem_of_find?_eq_some hf)
    simp only [row, Except.ok.injEq]
    constructor
    · intro h; exact ⟨o, hr, h.symm⟩
    · rintro ⟨o', ho', rfl⟩
      rw [inj o o' (by rw [← hop o hr, ← hop o' ho'])]

/-- A word no row accepts is rejected, and only such a word. -/
theorem decode_error_iff (w : CmdWord) (wd : Word) :
    (∃ e, decode w wd = .error e) ↔ ∀ o : Opcode, o.row.accepts w = false := by
  have h := decode_ok_iff w wd
  constructor
  · rintro ⟨e, he⟩ o
    cases ha : o.row.accepts w with
    | false => rfl
    | true =>
      have := (h (o.build w wd)).mpr ⟨o, ha, rfl⟩
      rw [he] at this; cases this
  · intro hn
    cases hd : decode w wd with
    | error e => exact ⟨e, rfl⟩
    | ok i =>
      obtain ⟨o, ho, -⟩ := (h i).mp hd
      rw [hn o] at ho; cases ho

/-- The decoder's answer from the bits above the operands and the command built. -/
theorem decode_of_row (o : Opcode) (w : CmdWord) (wd : Word) (i : Instr)
    (h : w.toNat / 2 ^ o.low = o.op.toNat * 2 ^ (28 - o.low)) (hi : o.build w wd = i) : decode w wd = .ok i :=
  (decode_ok_iff _ _ _).mpr ⟨o, (accepts_iff o w).mpr h, hi.symm⟩

/-! ### Words written with shifts and ors (R69) -/

/-- An or of a number with zeros below bit `k` and a number below `2^k` is their sum. -/
theorem or_low (a x k : Nat) (ha : a % 2 ^ k = 0) (hx : x < 2 ^ k) : a ||| x = a + x := by
  have h := Nat.shiftLeft_add_eq_or_of_lt hx (a / 2 ^ k)
  rw [Nat.shiftLeft_eq, Nat.div_mul_cancel (Nat.dvd_of_mod_eq_zero ha)] at h
  exact h.symm

theorem shifted_toNat (x k : Nat) (h : x * 2 ^ k < 2 ^ 32) (hx : x < 2 ^ 32) :
    (BitVec.ofNat 32 x <<< k).toNat = x * 2 ^ k := by
  rw [BitVec.toNat_shiftLeft, Nat.shiftLeft_eq, BitVec.toNat_ofNat, Nat.mod_eq_of_lt hx, Nat.mod_eq_of_lt h]

/-- `match | A`. -/
theorem word_one (c : CmdWord) (a : Nat) (hc : c.toNat % 2 ^ 8 = 0) (ha : a < 2 ^ 8) :
    (c ||| BitVec.ofNat 32 a).toNat = c.toNat + a := by
  rw [BitVec.toNat_or, BitVec.toNat_ofNat, Nat.mod_eq_of_lt (Nat.lt_trans ha (by decide)), or_low _ _ 8 hc ha]

/-- `match | B << 8 | A`. -/
theorem word_two (c : CmdWord) (b a : Nat) (hc : c.toNat % 2 ^ 16 = 0) (hb : b < 2 ^ 8) (ha : a < 2 ^ 8) :
    (c ||| BitVec.ofNat 32 b <<< 8 ||| BitVec.ofNat 32 a).toNat = c.toNat + b * 2 ^ 8 + a := by
  have e : (c ||| BitVec.ofNat 32 b <<< 8).toNat = c.toNat + b * 2 ^ 8 := by
    rw [BitVec.toNat_or, shifted_toNat b 8 (by omega) (by omega), or_low _ _ 16 hc (by omega)]
  rw [word_one _ a (by rw [e]; omega) ha, e]

/-- `match | C << 16 | B << 8 | A`. -/
theorem word_three (w : CmdWord) (c b a : Nat) (hw : w.toNat % 2 ^ 24 = 0) (hc : c < 2 ^ 8) (hb : b < 2 ^ 8)
    (ha : a < 2 ^ 8) : (w ||| BitVec.ofNat 32 c <<< 16 ||| BitVec.ofNat 32 b <<< 8 ||| BitVec.ofNat 32 a).toNat =
      w.toNat + c * 2 ^ 16 + b * 2 ^ 8 + a := by
  have e : (w ||| BitVec.ofNat 32 c <<< 16).toNat = w.toNat + c * 2 ^ 16 := by
    rw [BitVec.toNat_or, shifted_toNat c 16 (by omega) (by omega), or_low _ _ 24 hw (by omega)]
  rw [word_two _ b a (by rw [e]; omega) hb ha, e]

/-! ### The encoder -/

@[simp] theorem mode_ofCode_code (m : Mode) : Mode.ofCode m.code = m := by cases m <;> rfl

@[simp] theorem mode_code_ofCode (c : BitVec 2) : (Mode.ofCode c).code = c := by
  revert c; decide

theorem mode_code_lt (m : Mode) : m.code.toNat < 4 := m.code.isLt

/-- The word of a command as a number: its opcode and its operand fields (R61, R69). -/
theorem encode_toNat (i : Instr) : (encode i).1.toNat =
    i.opcode.op.toNat * 2 ^ 28 + i.fields.c.toNat * 2 ^ 16 + i.fields.b.toNat * 2 ^ 8 + i.fields.a.toNat := by
  have h : i.fields.op = i.opcode.op ∧ i.fields.z = 0 := by cases i <;> exact ⟨rfl, rfl⟩
  simp [encode, word_toNat, h.1, h.2]

end Sys2Proof
end

