-- ==== Sys2Proof/Laws/PerInstr.lean ====
section
/-! SUPPORT. Facts about commands as syntax, one lemma per constructor of Instr. Family `EncodesInRow`: the word of a
command is accepted by that command's own row of the opcode map (30_encoding.md R62). -/

namespace Sys2Proof.Laws.EncodesInRow

/-- The command's row accepts the command's word (R62). -/
def Statement (i : Instr) : Prop := i.opcode.row.accepts (encode i).1 = true

theorem init (mode : Mode) : Statement (.init mode) := by
  unfold Statement; rw [accepts_iff, encode_toNat]; cases mode <;> rfl

theorem acc (v p : Nat) : Statement (.acc v p) := by
  unfold Statement; rw [accepts_iff, encode_toNat]
  simp [Instr.fields, Instr.opcode, Opcode.op, Opcode.low]; omega

theorem norm : Statement .norm := by unfold Statement; rw [accepts_iff, encode_toNat]; rfl

theorem unpk (j : Nat) : Statement (.unpk j) := by
  unfold Statement; rw [accepts_iff, encode_toNat]
  simp [Instr.fields, Instr.opcode, Opcode.op, Opcode.low]; omega

theorem rdl (i : Nat) : Statement (.rdl i) := by
  unfold Statement; rw [accepts_iff, encode_toNat]
  simp [Instr.fields, Instr.opcode, Opcode.op, Opcode.low]; omega

theorem wrl (i : Nat) (data : Word) : Statement (.wrl i data) := by
  unfold Statement; rw [accepts_iff, encode_toNat]
  simp [Instr.fields, Instr.opcode, Opcode.op, Opcode.low]; omega

theorem rdt (v p i : Nat) : Statement (.rdt v p i) := by
  unfold Statement; rw [accepts_iff, encode_toNat]
  simp [Instr.fields, Instr.opcode, Opcode.op, Opcode.low]; omega

theorem rds : Statement .rds := by unfold Statement; rw [accepts_iff, encode_toNat]; rfl

theorem rdc : Statement .rdc := by unfold Statement; rw [accepts_iff, encode_toNat]; rfl

end Sys2Proof.Laws.EncodesInRow
end

