-- ==== Sys2Proof/Tests/Slice0.lean ====
section
/-! SUPPORT. Tests whose expected results are the spec's own (95_test_vectors.md, the sample words of 20_memory.md, the
examples of the command rules), and, for each obligation with premises, a concrete state and operands that meet them. -/

open Sys2Proof Sys2Proof.Machine Sys2Proof.Claims

namespace Sys2Proof.Tests

-- One theorem after another: many kernel evaluations at once exhaust the threads of one process.
set_option Elab.async false

/-! ### Helpers -/

/-- A machine with nothing outstanding, its limbs the listed numbers and then zeros. -/
def stateAt (p : Phase) (m : Mode) (x : List Nat) (c : Nat) (e : Option FaultCode) : State :=
  { engine := { limbs := limbsOf fun i => BitVec.ofNat 64 (x.getD i 0), cout := BitVec.ofNat 64 c, mode := m,
                phase := p, err := e }
    pending := []
    responses := [] }

/-- In ACCUM. -/
abbrev calling (m : Mode) (x : List Nat) : State := stateAt .accum m x 0 none

/-- In NORMD. -/
abbrev normalised (m : Mode) (x : List Nat) (c : Nat) : State := stateAt .normd m x c none

/-- In FAULT. -/
abbrev faulted (m : Mode) (c : FaultCode) : State := stateAt .fault m [] 0 (some c)

/-- With one request pending. -/
abbrev sent (s : State) (w : CmdWord) (wd : Word) : State := { s with pending := [.request w wd] }

/-- The state after a command. -/
def after (i : Instr) (s : State) : State :=
  match exec i s with
  | .next t => t
  | _ => s

/-- The state after a step. -/
def stepped (s : State) : State :=
  match step s with
  | .next t => t
  | _ => s

/-- The response to a command. -/
def reply (i : Instr) (s : State) : Response := (answer i s.engine).2

theorem exec_after (i : Instr) (s : State) : exec i s = .next (after i s) := by
  unfold after; rw [exec_next]

theorem answered_after (i : Instr) (s : State) : Answered (reply i s) s (after i s) := by
  unfold after; rw [exec_next]; exact ⟨rfl, rfl⟩

/-- What the host sees of one word sent: status, data, and the `STATUS` an RDS would show next. -/
def tryWord (s : State) (w : CmdWord) (wd : Word) : Option (Status × Word × Word) :=
  (stepped (sent s w wd)).responses.getLast?.map fun r =>
    (r.status, r.rdata, (stepped (sent s w wd)).engine.statusWord)

/-- The first `k` limbs after one word sent. -/
def limbsAfter (s : State) (w : CmdWord) (wd : Word) (k : Nat) : List Nat := (stepped (sent s w wd)).engine.lanes k

/-! ### Well-formedness: each check refuses an ill-formed term (R69) -/

theorem test_acc_value_too_wide : Instr.wellFormed (.acc 256 0) = false := by decide
theorem test_acc_position_too_wide : Instr.wellFormed (.acc 0 256) = false := by decide
theorem test_unpk_index_too_wide : Instr.wellFormed (.unpk 256) = false := by decide
theorem test_rdl_index_too_wide : Instr.wellFormed (.rdl 256) = false := by decide
theorem test_wrl_index_too_wide : Instr.wellFormed (.wrl 256 0) = false := by decide
theorem test_rdt_value_too_wide : Instr.wellFormed (.rdt 256 0 0) = false := by decide
theorem test_rdt_position_too_wide : Instr.wellFormed (.rdt 0 256 0) = false := by decide
theorem test_rdt_index_too_wide : Instr.wellFormed (.rdt 0 0 256) = false := by decide
theorem test_widest_operands_fit : Instr.wellFormed (.rdt 255 255 255) = true ∧ Instr.wellFormed (.acc 255 255) = true :=
  by decide

/-! ### Decoding: words written out field by field, OP Z C B A (R61, R62) -/

theorem test_decode_init : decode 0b0001_0000_00000000_00000000_00000011 0 = .ok (.init .dec64) := by decide
theorem test_decode_acc : decode 0b0010_0000_00000000_00010010_00011110 0 = .ok (.acc 18 30) := by decide
theorem test_decode_norm : decode 0b0011_0000_00000000_00000000_00000000 0 = .ok .norm := by decide
theorem test_decode_unpk : decode 0b0100_0000_00000000_00000000_00101100 0 = .ok (.unpk 44) := by decide
theorem test_decode_rdl : decode 0b0101_0000_00000000_00000000_00001000 0 = .ok (.rdl 8) := by decide
theorem test_decode_wrl : decode 0b0110_0000_00000000_00000000_00010000 7 = .ok (.wrl 16 7) := by decide
theorem test_decode_rdt : decode 0b0111_0000_00010000_00111001_00000000 0 = .ok (.rdt 57 0 16) := by decide
theorem test_decode_rds : decode 0b1000_0000_00000000_00000000_00000000 0 = .ok .rds := by decide
theorem test_decode_rdc : decode 0b1001_0000_00000000_00000000_00000000 0 = .ok .rdc := by decide
/-- V-E1 to V-E5, V-E8, V-E9, V-E10, V-E13. -/
theorem test_decode_ill_formed :
    decode 0x00000000 0 = .error .reservedOpcode ∧ decode 0xFFFFFFFF 0 = .error .reservedOpcode ∧
    decode 0xA0000000 0 = .error .reservedOpcode ∧ decode 0x30000001 0 = .error .mustBeZero ∧
    decode 0x10000004 0 = .error .mustBeZero ∧ decode 0x21000000 0 = .error .mustBeZero ∧
    decode 0x40000100 0 = .error .mustBeZero ∧ decode 0x50010000 0 = .error .mustBeZero ∧
    decode 0x71000000 0 = .error .mustBeZero := by decide
theorem test_decode_table_word : decodeTableWord 32 0x2000121E = some (.acc 18 30) ∧
    decodeTableWord 32 0x20FF0000 = none := by decide

/-! ### Reset (R20) -/

/-- V-C1. -/
theorem test_reset_status : tryWord State.reset 0x80000000 0 = some (.ok, 0, 0) := by decide +kernel
/-- V-P4: the pending reset event in FAULT. -/
theorem test_reset_event : (stepped { faulted .dec32 .eIdx with pending := [.reset] }).engine.statusWord = 0 := by
  decide +kernel

/-! ### INIT, RDS, RDC (95_test_vectors.md section 4.1) -/

/-- V-C3, V-C13. -/
theorem test_init : tryWord State.reset 0x10000003 0 = some (.ok, 0, 0x07) ∧
    tryWord State.reset 0x10000001 0xFFFFFFFFFFFFFFFF = some (.ok, 0, 0x05) := by decide +kernel
/-- V-C10, V-C12, V-F12: `CNZ` and all 18 limbs cleared; FAULT left. -/
theorem test_init_clears : tryWord (normalised .enc32 [1, 2, 3] 5) 0x10000000 0 = some (.ok, 0, 0x04) ∧
    limbsAfter (calling .enc64 (List.replicate 18 9)) 0x10000002 0 18 = List.replicate 18 0 ∧
    tryWord (faulted .dec32 .eIdx) 0x10000002 0 = some (.ok, 0, 0x06) := by decide +kernel
/-- V-C4, V-F1. -/
theorem test_rds : tryWord (calling .dec32 []) 0x80000000 0 = some (.ok, 6, 0x06) ∧
    tryWord (faulted .dec32 .eIdx) 0x80000000 0 = some (.ok, 0x3E, 0x3E) := by decide +kernel
/-- R81 example: COUT = 2 in NORMD of DEC32. -/
theorem test_rds_flag : tryWord (normalised .dec32 [] 2) 0x80000000 0 = some (.ok, 0x8A, 0x8A) := by decide +kernel
/-- V-C8, V-C7, V-F3. -/
theorem test_rdc : tryWord (normalised .enc32 [] 28104751825) 0x90000000 0 = some (.ok, 0x68B2C7AD1, 0x88) ∧
    tryWord State.reset 0x90000000 0 = some (.eSeq, 0, 0x2C) ∧
    tryWord (faulted .dec32 .eIdx) 0x90000000 0 = some (.eFlt, 0, 0x3E) := by decide +kernel

/-! ### ACC, RDT (section 4.2) -/

/-- V-A1, V-A3, V-A4, V-A5: no carry between lanes. -/
theorem test_acc : limbsAfter (calling .enc32 []) 0x2000121E 0 2 = [4608, 0] ∧
    limbsAfter (calling .enc32 [0x1544BE40, 6]) 0x2000011B 0 2 = [0x2A897C80, 12] := by decide +kernel
/-- V-A7, V-A12, V-A18, V-A20, V-A21, V-A22. -/
theorem test_acc_faults : tryWord (calling .enc32 []) 0x20000020 0 = some (.eIdx, 0, 0x3C) ∧
    tryWord (calling .dec32 []) 0x20003A2B 0 = some (.eIdx, 0, 0x3E) ∧
    tryWord (normalised .enc32 [] 0) 0x20000101 0 = some (.eSeq, 0, 0x2C) ∧
    tryWord (calling .enc32 [2 ^ 64 - 1]) 0x2000011F 0 = some (.eOvf, 0, 0x4C) ∧
    tryWord (calling .enc32 [2 ^ 64 - 256]) 0x2000FF1F 0 = some (.ok, 0, 0x04) ∧
    tryWord (calling .enc32 [2 ^ 64 - 255]) 0x2000FF1F 0 = some (.eOvf, 0, 0x4C) := by decide +kernel
/-- V-A23, V-A24, V-A31. -/
theorem test_rdt : tryWord (calling .dec64 []) 0x70103900 0 = some (.ok, 0xB, 0x07) ∧
    tryWord (calling .dec64 []) 0x70023900 0 = some (.ok, 0x96800000, 0x07) ∧
    tryWord (normalised .enc32 [] 0) 0x7001011B 0 = some (.ok, 6, 0x08) := by decide +kernel
/-- V-A26, V-A27, V-A28, V-A32. -/
theorem test_rdt_faults : tryWord (calling .dec64 []) 0x70000158 0 = some (.eIdx, 0, 0x3F) ∧
    tryWord (calling .dec64 []) 0x70113900 0 = some (.eIdx, 0, 0x3F) ∧
    tryWord (calling .dec64 []) 0x70003A00 0 = some (.eIdx, 0, 0x3F) ∧
    tryWord State.reset 0x70000000 0 = some (.eSeq, 0, 0x2C) := by decide +kernel
/-- V-T8, V-T9, V-T23. -/
theorem test_table_rows : tableRow .enc32 255 27 = [413571456, 1668, 0, 0, 0, 0, 0, 0, 0] ∧
    tableRow .enc32 1 0 = [653196832, 202429355, 623559732, 169857680, 293043911, 78924501, 548794242, 424315059, 13131] ∧
    tableRow .dec32 57 0 = [0x0, 0x29F7E800, 0x78ECE19A, 0x404323EA, 0x65E7D44A, 0x61FF081E, 0x1C064477, 0x4EEA27A1, 0x3] := by
  decide +kernel
/-- V-T14 and V-T27, last words; V-T10 by the generation algorithm (R33). -/
theorem test_table_words : tableWord .enc64 255 0 17 = 17150 ∧ tableWord .dec64 57 0 16 = 0xB ∧
    generatedRow .enc32 255 0 =
      [506929856, 423657874, 169393882, 650518722, 557882586, 435044828, 138540156, 557830306, 3348569] := by
  decide +kernel

/-! ### NORM (section 4.3) -/

/-- V-N2, V-N3. -/
theorem test_norm :
    limbsAfter (calling .enc32 [656356768, 656356767, 1312713593, 0, 0, 0, 0, 0, 1980386800]) 0x30000000 0 9 =
      [0, 0, 58, 2, 0, 0, 0, 0, 11316496] ∧
    tryWord (calling .dec32 [0x1FFFFFFFF, 0xFFFFFFFF, 0xFFFFFFFF, 0, 0, 0, 0, 0, 0x2FFFFFFFF]) 0x30000000 0 =
      some (.ok, 0, 0x8A) := by decide +kernel
/-- V-NT2, V-NT4 (limb 0 not written), V-NT5, V-NT6. -/
theorem test_norm_faults : tryWord (normalised .enc32 [] 0) 0x30000000 0 = some (.eSeq, 0, 0x2C) ∧
    limbsAfter (calling .enc32 [2 ^ 64 - 1, 2 ^ 64 - 1]) 0x30000000 0 2 = [2 ^ 64 - 1, 2 ^ 64 - 1] ∧
    tryWord (calling .enc32 [2 ^ 64 - 1, 2 ^ 64 - 28104751826]) 0x30000000 0 = some (.ok, 0, 0x08) ∧
    tryWord (calling .enc32 [2 ^ 64 - 1, 2 ^ 64 - 28104751825]) 0x30000000 0 = some (.eOvf, 0, 0x4C) := by
  decide +kernel

/-! ### UNPK, RDL, WRL (section 4.4) -/

/-- V-U2, V-U3, V-U4, V-U10. -/
theorem test_unpk : tryWord (normalised .enc32 [4660] 0) 0x4000002A 0 = some (.ok, 1, 0x08) ∧
    tryWord (normalised .enc32 [4660] 0) 0x4000002B 0 = some (.ok, 0x16, 0x08) ∧
    tryWord (normalised .enc32 [4660] 0) 0x4000002C 0 = some (.ok, 0x14, 0x08) ∧
    tryWord (normalised .dec32 [0x11223344] 0) 0x40000020 0 = some (.ok, 0x11, 0x0A) := by decide +kernel
/-- V-U5, V-U7, V-U15. -/
theorem test_unpk_faults : tryWord (normalised .enc32 [4660] 0) 0x4000002D 0 = some (.eIdx, 0, 0x3C) ∧
    tryWord (calling .enc32 [4660]) 0x40000000 0 = some (.eSeq, 0, 0x2C) ∧
    tryWord (normalised .dec64 [] 0xFFFFFFFF) 0x40000044 0 = some (.eIdx, 0, 0xBF) := by decide +kernel
/-- V-A2, V-U18, V-NT10. -/
theorem test_rdl : tryWord (calling .enc32 [0x1234]) 0x50000000 0 = some (.ok, 0x1234, 0x04) ∧
    tryWord (calling .enc64 []) 0x50000011 0 = some (.ok, 0, 0x05) ∧
    tryWord (normalised .dec64 (List.replicate 16 0 ++ [0xFFFFFFFF]) 0xFFFFFFFF) 0x50000010 0 =
      some (.ok, 0xFFFFFFFF, 0x8B) := by decide +kernel
/-- V-U17, V-U21, V-U22. -/
theorem test_rdl_faults : tryWord (calling .enc32 []) 0x50000009 0 = some (.eIdx, 0, 0x3C) ∧
    tryWord (calling .dec64 []) 0x50000011 0 = some (.eIdx, 0, 0x3F) ∧
    tryWord State.reset 0x50000000 0 = some (.eSeq, 0, 0x2C) := by decide +kernel
/-- V-U23, V-U25. -/
theorem test_wrl : limbsAfter (calling .enc32 []) 0x60000008 0xFFFFFFFFFFFFFFFF 9 = [0, 0, 0, 0, 0, 0, 0, 0, 2 ^ 64 - 1] ∧
    limbsAfter (calling .enc32 [255]) 0x60000000 7 1 = [7] := by decide +kernel
/-- V-U26, V-U27, V-F7. -/
theorem test_wrl_faults : tryWord (calling .enc32 []) 0x60000009 1 = some (.eIdx, 0, 0x3C) ∧
    tryWord (normalised .enc32 [] 0) 0x60000000 1 = some (.eSeq, 0, 0x2C) ∧
    tryWord (faulted .dec32 .eIdx) 0x60000000 1 = some (.eFlt, 0, 0x3E) := by decide +kernel

/-! ### Ill-formed words and FAULT (sections 4.5, 4.6) -/

/-- V-E7, V-E11, V-E14. -/
theorem test_ill_formed : tryWord State.reset 0x20FF0000 0 = some (.eOpc, 0, 0x1C) ∧
    tryWord (calling .enc32 []) 0x80000100 0 = some (.eOpc, 0, 0x1C) ∧
    tryWord (calling .enc32 []) 0x70FFFFFF 0 = some (.eIdx, 0, 0x3C) := by decide +kernel
/-- V-F9, V-F10, V-F11. -/
theorem test_ill_formed_in_fault : tryWord (faulted .dec32 .eIdx) 0x00000000 0 = some (.eFlt, 0, 0x3E) ∧
    tryWord (faulted .dec32 .eIdx) 0x10000004 0 = some (.eFlt, 0, 0x3E) ∧
    tryWord (faulted .dec32 .eIdx) 0x80000100 0 = some (.eFlt, 0, 0x3E) := by decide +kernel

/-! ### Fetching and assembling -/

theorem test_fetch_word : tryWord State.reset 0x2000121E 0 = some (.eSeq, 0, 0x2C) ∧
    (stepped (State.reset.withFetchWord 32 0x10000002)).engine.statusWord = 0x06 := by decide +kernel
/-- R69: what does not fit its field is rejected; what fits is not, whatever the mode; `.word` takes any word. -/
theorem test_assembler : assemble "UNPK 256".toList = .error .operandTooWide ∧
    assemble "INIT 4".toList = .error .operandTooWide ∧
    assemble "ACC 255, 255".toList = .ok (some (0x2000FFFF, 0)) ∧
    assemble ".word 0x10000004 ; bit 2".toList = .ok (some (0x10000004, 0)) ∧
    assemble "; nothing".toList = .ok none := by decide +kernel

/-! ### Witnesses: for each obligation with premises, a state and operands that meet all of them together -/

/-- The invariant holds in a call, its limbs at their largest. -/
theorem inv_calling : (calling .enc32 [2 ^ 64 - 1]).engine.Inv :=
  ⟨by decide +kernel, by decide +kernel, by decide +kernel, by decide +kernel, by decide +kernel, by decide +kernel⟩
/-- The invariant holds in NORMD, a limb at `R - 1` and `COUT` at its bound. -/
theorem inv_normalised : (normalised .enc32 [656356767] 28104751825).engine.Inv :=
  ⟨by decide +kernel, by decide +kernel, by decide +kernel, by decide +kernel, by decide +kernel, by decide +kernel⟩
/-- The invariant holds in FAULT. -/
theorem inv_faulted : (faulted .dec32 .eIdx).engine.Inv :=
  ⟨by decide +kernel, by decide +kernel, by decide +kernel, by decide +kernel, by decide +kernel, by decide +kernel⟩

/-- ResetValuesAndUnobservableLimbs: two machines in IDLE that differ in a limb, with an INIT pending. -/
theorem witness_hidden_limbs : ∃ s t, LimbsHidden s t ∧ s.engine.limb 0 ≠ t.engine.limb 0 ∧ s.pending ≠ [] :=
  ⟨sent (stateAt .idle .enc32 [1] 0 none) 0x10000000 0, sent (stateAt .idle .enc32 [2] 0 none) 0x10000000 0,
    ⟨rfl, rfl, rfl, rfl, rfl, rfl, fun h => absurd h (by decide)⟩, by decide +kernel, by decide +kernel⟩

/-- ResetEventIsOneStep, and the reset clauses of PhaseMovesOnlyOneWay and OnlyInitOrResetLeavesFault. -/
theorem witness_reset_pending : ∃ s : State, s.pending = .reset :: [.request 0x10000000 0] ∧ s.engine.phase = .fault ∧
    step s = .next (stepped s) :=
  ⟨{ faulted .dec32 .eIdx with pending := [.reset, .request 0x10000000 0] }, rfl, rfl, rfl⟩

/-- InitBeginsACall: an ill-formed INIT word sent; two INITs; another command in IDLE and in FAULT. -/
theorem witness_init : BitVec.extractLsb' 28 4 (0x10000004 : CmdWord) = 1 ∧
    BitVec.extractLsb' 2 26 (0x10000004 : CmdWord) ≠ 0 ∧
    (sent State.reset 0x10000004 0).pending = .request 0x10000004 0 :: [] := by decide
theorem witness_two_inits : ∃ s t u v, exec (.init .enc32) s = .next t ∧ exec (.init .dec64) t = .next u ∧
    exec (.init .dec64) s = .next v :=
  ⟨State.reset, _, _, _, exec_after _ _, exec_after _ _, exec_after _ _⟩
theorem witness_not_init : Instr.opcode (.acc 1 1) ≠ .init ∧ State.reset.engine.phase = .idle ∧
    exec (.acc 1 1) State.reset = .next (after (.acc 1 1) State.reset) ∧
    (faulted .dec32 .eIdx).engine.phase = .fault ∧
    exec .norm (faulted .dec32 .eIdx) = .next (after .norm (faulted .dec32 .eIdx)) :=
  ⟨by decide, rfl, exec_after _ _, rfl, exec_after _ _⟩

/-- RdsReadsStatus and RdcReadsCarryOut: their ill-formed words. -/
theorem witness_rds_rdc_words : BitVec.extractLsb' 28 4 (0x80000100 : CmdWord) = 8 ∧
    BitVec.extractLsb' 0 28 (0x80000100 : CmdWord) ≠ 0 ∧ BitVec.extractLsb' 28 4 (0x90000001 : CmdWord) = 9 ∧
    BitVec.extractLsb' 0 28 (0x90000001 : CmdWord) ≠ 0 := by decide
/-- RdcReadsCarryOut: a state of each phase; ACCUM under the invariant. -/
theorem witness_rdc : (calling .enc32 [2 ^ 64 - 1]).engine.Inv ∧ (calling .enc32 [2 ^ 64 - 1]).engine.phase = .accum ∧
    (normalised .enc32 [] 5).engine.phase = .normd ∧ State.reset.engine.phase = .idle ∧
    (faulted .dec32 .eIdx).engine.phase = .fault := ⟨inv_calling, rfl, rfl, rfl, rfl⟩
/-- RdcReadsCarryOut, the NORM clause, and NormWritesTheRadixExpansion: a limb at `R`, the value below `R^n`. -/
theorem witness_norm_answered :
    (calling .enc32 [656356768]).engine.phase = .accum ∧
    (calling .enc32 [656356768]).engine.limbVal < R (calling .enc32 [656356768]) ^ n (calling .enc32 [656356768]) ∧
    exec .norm (calling .enc32 [656356768]) = .next (after .norm (calling .enc32 [656356768])) ∧
    Answered (reply .norm (calling .enc32 [656356768])) (calling .enc32 [656356768])
      (after .norm (calling .enc32 [656356768])) ∧
    (reply .norm (calling .enc32 [656356768])).status = .ok :=
  ⟨rfl, by decide +kernel, exec_after _ _, answered_after _ _, by decide +kernel⟩
/-- NormWritesTheRadixExpansion, the uniqueness premise: the limbs `0, 1, 0, …` and carry 0 represent `R`. -/
theorem witness_radix_expansion : (∀ i < n (calling .enc32 [656356768]), (if i = 1 then 1 else 0) <
      R (calling .enc32 [656356768])) ∧
    0 * R (calling .enc32 [656356768]) ^ n (calling .enc32 [656356768]) +
      ∑ i ∈ Finset.range (n (calling .enc32 [656356768])), (if i = 1 then 1 else 0) *
        R (calling .enc32 [656356768]) ^ i = (calling .enc32 [656356768]).engine.limbVal := by decide +kernel

/-- AccAddsOneTableRow: the last row of ENC32, the sum exactly `2^64 - 1`; then one more, an overflow. -/
theorem witness_acc : (calling .enc32 [2 ^ 64 - 256]).engine.phase = .accum ∧
    255 < (calling .enc32 [2 ^ 64 - 256]).engine.mode.params.V ∧ 31 < Mode.enc32.params.P ∧
    ∀ i < n (calling .enc32 [2 ^ 64 - 256]),
      x (calling .enc32 [2 ^ 64 - 256]) i + word .enc32 255 31 i < 2 ^ 64 := by decide +kernel
theorem witness_acc_overflow : (calling .enc32 [2 ^ 64 - 255]).engine.phase = .accum ∧ 255 < Mode.enc32.params.V ∧
    31 < Mode.enc32.params.P ∧
    ∃ i < n (calling .enc32 [2 ^ 64 - 255]),
      2 ^ 64 ≤ x (calling .enc32 [2 ^ 64 - 255]) i + word .enc32 255 31 i :=
  ⟨rfl, by decide, by decide, 0, by decide +kernel, by decide +kernel⟩
/-- AccAddsOneTableRow and RdtReadsOneTableWord: the first values out of range, and the last in range. -/
theorem witness_row_ranges : (calling .dec32 []).engine.phase = .accum ∧ Mode.dec32.params.V ≤ 58 ∧
    57 < Mode.dec32.params.V ∧ Mode.dec32.params.P ≤ 44 ∧ 43 < Mode.dec32.params.P ∧ 8 < n (calling .dec32 []) ∧
    n (calling .dec32 []) ≤ 9 ∧ Mode.dec64.params.P ≤ 88 ∧ Mode.enc64.params.P ≤ 64 := by decide +kernel
/-- The refusing clauses of the nine command statements: a state of each phase. -/
theorem witness_refusing_phases : State.reset.engine.phase = .idle ∧ State.reset.engine.phase ≠ .accum ∧
    (normalised .enc32 [] 0).engine.phase ≠ .accum ∧ (faulted .dec32 .eIdx).engine.phase ≠ .normd ∧
    (calling .enc32 []).engine.phase ≠ .normd := by decide +kernel
/-- The word clauses: the widest operand fields. -/
theorem witness_fields : (255 : Nat) < 256 ∧ (0 : Nat) < 256 := by decide

/-- NormMakesOneCarryPass: limb 1 the largest that cannot fault, and one more (V-NT5, V-NT6). -/
theorem witness_norm : (calling .enc32 [2 ^ 64 - 1, 2 ^ 64 - 28104751826]).engine.phase = .accum ∧
    ∀ i < n (calling .enc32 [2 ^ 64 - 1, 2 ^ 64 - 28104751826]),
      x (calling .enc32 [2 ^ 64 - 1, 2 ^ 64 - 28104751826]) i +
        carry (calling .enc32 [2 ^ 64 - 1, 2 ^ 64 - 28104751826]) i < 2 ^ 64 := by decide +kernel
theorem witness_norm_overflow : (calling .enc32 [2 ^ 64 - 1, 2 ^ 64 - 28104751825]).engine.phase = .accum ∧
    ∃ i < n (calling .enc32 [2 ^ 64 - 1, 2 ^ 64 - 28104751825]),
      2 ^ 64 ≤ x (calling .enc32 [2 ^ 64 - 1, 2 ^ 64 - 28104751825]) i +
        carry (calling .enc32 [2 ^ 64 - 1, 2 ^ 64 - 28104751825]) i :=
  ⟨rfl, 1, by decide +kernel, by decide +kernel⟩

/-- UnpkReadsOneDigit: the last digit of ENC32 and the first index beyond it; a limb at `R - 1`; a decode mode. -/
theorem witness_unpk : (normalised .enc32 [4660] 0).engine.phase = .normd ∧
    44 < n (normalised .enc32 [4660] 0) * Mode.enc32.params.k ∧
    n (normalised .enc32 [4660] 0) * Mode.enc32.params.k ≤ 45 ∧ 656356767 < Mode.enc32.params.R ∧
    (normalised .dec32 [] 0).engine.mode = .dec32 := by decide +kernel
/-- RdlReadsOneLimb, WrlReplacesOneLimb: limb 17 exists in ENC64 and not in DEC64. -/
theorem witness_limb_ranges : (calling .enc64 []).engine.phase = .accum ∧ 17 < n (calling .enc64 []) ∧
    (calling .dec64 []).engine.phase = .accum ∧ n (calling .dec64 []) ≤ 17 ∧
    (normalised .dec64 [] 0).engine.phase = .normd ∧ 16 < n (normalised .dec64 [] 0) := by decide +kernel

/-- DecodeOfEncodeIsIdentity, EncodeOfDecodeIsIdentity: the widest operands. -/
theorem witness_round_trip : Instr.wellFormed (.rdt 255 255 255) = true ∧
    decode 0x70FFFFFF 0 = .ok (.rdt 255 255 255) ∧ decode 0x600000FF 5 = .ok (.wrl 255 5) := by decide

/-- StepRunsTheDecodedCommand. -/
theorem witness_step : (sent State.reset 0x2000121E 0).pending = .request 0x2000121E 0 :: [] ∧
    decode 0x2000121E 0 = .ok (.acc 0x12 30) ∧ decode 0x20FF0000 0 = .error .mustBeZero ∧
    0x2000121E < 2 ^ 32 ∧ decodeTableWord 32 0x2000121E = some (.acc 0x12 30) := by decide

/-- IllFormedWordFaultsOpc: one word for each way to be ill formed. -/
theorem witness_ill_formed : IllFormed 0x00000000 ∧ IllFormed 0xA0000000 ∧ IllFormed 0x10000004 ∧
    IllFormed 0x20010000 ∧ IllFormed 0x30000001 ∧ IllFormed 0x40000100 ∧ IllFormed 0x71000000 ∧
    (sent State.reset 0 0).pending = .request 0 0 :: [] ∧ (sent State.reset 0 0).engine.phase ≠ .fault := by
  unfold IllFormed; dsimp only
  refine ⟨?_, ?_, ?_, ?_, ?_, ?_, ?_, rfl, ?_⟩ <;> decide
/-- FaultedEngineIgnoresCommands: NORM, and an ill-formed INIT word, in FAULT. -/
theorem witness_ignored : (sent (faulted .dec32 .eIdx) 0x30000000 0).pending = .request 0x30000000 0 :: [] ∧
    (faulted .dec32 .eIdx).engine.phase = .fault ∧ (∀ m, decode 0x30000000 0 ≠ .ok (.init m)) ∧
    decode 0x30000000 0 ≠ .ok .rds ∧ (∀ m, decode 0x10000004 0 ≠ .ok (.init m)) ∧ decode 0x10000004 0 ≠ .ok .rds :=
  ⟨rfl, rfl, fun m => by cases m <;> decide, by decide, fun m => by cases m <;> decide, by decide⟩
/-- FirstFailingCheckDecides, and the ill-formed clauses of PhaseMovesOnlyOneWay and ResponseDataIsTheResultOrZero. -/
theorem witness_rejected_word : (sent State.reset 0x20FF0000 0).pending = .request 0x20FF0000 0 :: [] ∧
    decode 0x20FF0000 0 = .error .mustBeZero ∧
    step (sent State.reset 0x20FF0000 0) = .next (stepped (sent State.reset 0x20FF0000 0)) ∧
    Answered ⟨.eOpc, 0⟩ (taken (sent State.reset 0x20FF0000 0) []) (stepped (sent State.reset 0x20FF0000 0)) :=
  ⟨rfl, by decide, rfl, by constructor <;> decide +kernel⟩
/-- FaultChangesOnlyPhaseAndErr: an ACC in IDLE, and an ill-formed word. -/
theorem witness_fault_answered : exec (.acc 1 1) State.reset = .next (after (.acc 1 1) State.reset) ∧
    Answered (reply (.acc 1 1) State.reset) State.reset (after (.acc 1 1) State.reset) ∧
    (reply (.acc 1 1) State.reset).status = FaultCode.status .eSeq ∧ Status.eOpc = FaultCode.status .eOpc :=
  ⟨exec_after _ _, answered_after _ _, by decide +kernel, rfl⟩
/-- OnlyInitOrResetLeavesFault: a step in FAULT that stays (NORM) and one that leaves (INIT). -/
theorem witness_leaving_fault : (sent (faulted .dec32 .eIdx) 0x30000000 0).engine.phase = .fault ∧
    step (sent (faulted .dec32 .eIdx) 0x30000000 0) = .next (stepped (sent (faulted .dec32 .eIdx) 0x30000000 0)) ∧
    decode 0x30000000 0 ≠ .ok .rds ∧
    step (sent (faulted .dec32 .eIdx) 0x10000001 0) = .next (stepped (sent (faulted .dec32 .eIdx) 0x10000001 0)) ∧
    (stepped (sent (faulted .dec32 .eIdx) 0x10000001 0)).engine.phase = .accum :=
  ⟨rfl, rfl, by decide, rfl, by decide +kernel⟩
/-- PhaseMovesOnlyOneWay, EachFieldHasItsWriters, ResponseDataIsTheResultOrZero: a completing UNPK in NORMD, and an ACC
there that does not complete. -/
theorem witness_answers : exec (.unpk 44) (normalised .enc32 [4660] 0) =
      .next (after (.unpk 44) (normalised .enc32 [4660] 0)) ∧
    Answered (reply (.unpk 44) (normalised .enc32 [4660] 0)) (normalised .enc32 [4660] 0)
      (after (.unpk 44) (normalised .enc32 [4660] 0)) ∧
    (reply (.unpk 44) (normalised .enc32 [4660] 0)).status = .ok ∧
    (reply (.acc 1 1) (normalised .enc32 [4660] 0)).status ≠ .ok ∧
    Instr.opcode (.unpk 44) ≠ .init ∧ Instr.opcode (.unpk 44) ≠ .norm :=
  ⟨exec_after _ _, answered_after _ _, by decide +kernel, by decide +kernel, by decide, by decide⟩
/-- EachFieldHasItsWriters: a NORM that overflows, and a NORM ignored in FAULT while `COUT` is not 0. -/
theorem witness_norm_not_completing :
    (reply .norm (calling .enc32 [2 ^ 64 - 1, 2 ^ 64 - 1])).status = .eOvf ∧
    (reply .norm (stateAt .fault .enc32 [1] 5 (some .eSeq))).status = .eFlt ∧
    exec .norm (stateAt .fault .enc32 [1] 5 (some .eSeq)) =
      .next (after .norm (stateAt .fault .enc32 [1] 5 (some .eSeq))) ∧
    Answered (reply .norm (stateAt .fault .enc32 [1] 5 (some .eSeq))) (stateAt .fault .enc32 [1] 5 (some .eSeq))
      (after .norm (stateAt .fault .enc32 [1] 5 (some .eSeq))) :=
  ⟨by decide +kernel, by decide +kernel, exec_after _ _, answered_after _ _⟩
/-- WdataMattersToWrlOnly: a command other than WRL, and an ill-formed word. -/
theorem witness_wdata : (∀ i d, decode 0x10000001 5 ≠ .ok (.wrl i d)) ∧ ∀ i d, decode 0x60000100 5 ≠ .ok (.wrl i d) := by
  have h1 : decode 0x10000001 5 = .ok (.init .enc64) := by decide
  have h2 : decode 0x60000100 5 = .error .mustBeZero := by decide
  rw [h1, h2]; constructor <;> intro i d <;> simp
/-- EveryStepKeepsTheInvariant: a NORM pending in a call. -/
theorem witness_inv_step : (sent (calling .enc32 [2 ^ 64 - 1]) 0x30000000 0).engine.Inv ∧
    step (sent (calling .enc32 [2 ^ 64 - 1]) 0x30000000 0) =
      .next (stepped (sent (calling .enc32 [2 ^ 64 - 1]) 0x30000000 0)) := ⟨inv_calling, by rfl⟩

/-- NormCompletesWithinTheBounds: (a) with the largest `m`, (b) with the largest limbs. -/
theorem witness_norm_bounds : (calling .enc32 [(2 ^ 32 - 1) * 656356767]).engine.phase = .accum ∧ 2 ^ 32 - 1 < 2 ^ 32 ∧
    (∀ i < n (calling .enc32 [(2 ^ 32 - 1) * 656356767]), x (calling .enc32 [(2 ^ 32 - 1) * 656356767]) i ≤
      (2 ^ 32 - 1) * (R (calling .enc32 [(2 ^ 32 - 1) * 656356767]) - 1)) ∧
    ∀ i < n (calling .dec32 [2 ^ 64 - 1, 2 ^ 64 - 2 ^ 32]), 1 ≤ i →
      x (calling .dec32 [2 ^ 64 - 1, 2 ^ 64 - 2 ^ 32]) i ≤
        2 ^ 64 - 1 - (2 ^ 64 - 1) / R (calling .dec32 [2 ^ 64 - 1, 2 ^ 64 - 2 ^ 32]) := by decide +kernel
/-- AccOrderDoesNotMatter: the two rows of V-A2 in either order. -/
theorem witness_acc_order : ∃ ds t, (calling .enc32 []).pending = [] ∧ (calling .enc32 []).engine.phase = .accum ∧
    (∀ q ∈ [(0x12, 30), (0x34, 31)], q.1 < 256 ∧ q.2 < 256) ∧
    [(0x12, 30), (0x34, 31)].Perm [(0x34, 31), (0x12, 30)] ∧
    issueAll ([(0x12, 30), (0x34, 31)].map fun q => .acc q.1 q.2) (calling .enc32 []) = some (ds, t) := by
  have h : (issueAll ([(0x12, 30), (0x34, 31)].map fun q => .acc q.1 q.2) (calling .enc32 [])).isSome = true := by
    decide +kernel
  obtain ⟨⟨ds, t⟩, h⟩ := Option.isSome_iff_exists.mp h
  exact ⟨ds, t, rfl, rfl, by decide, by decide, h⟩
/-- AccGrowthIsBounded (a position used twice) and DocumentedCallsNeverOverflow (each once): rows at the ranges' ends. -/
theorem witness_calls : State.reset.pending = [] ∧ [(57, 0), (57, 0), (0, 43)].length < 2 ^ 32 ∧
    (∀ q ∈ [(57, 0), (57, 0), (0, 43)], q.1 < Mode.dec32.params.V ∧ q.2 < Mode.dec32.params.P) ∧
    (∀ q ∈ [(255, 0), (255, 63)], q.1 < Mode.enc64.params.V ∧ q.2 < Mode.enc64.params.P) ∧
    ([(255, 0), (255, 63)].map Prod.snd).Nodup := by decide
/-- DigitsRepresentTheLimbs: every UNPK completes on the limbs of V-U1. -/
theorem witness_digits : ∃ d : Nat → Word, (normalised .enc32 [4660] 0).engine.phase = .normd ∧
    (∀ i < n (normalised .enc32 [4660] 0), x (normalised .enc32 [4660] 0) i < R (normalised .enc32 [4660] 0)) ∧
    ∀ j < n (normalised .enc32 [4660] 0) * Mode.enc32.params.k, ∃ t,
      exec (.unpk j) (normalised .enc32 [4660] 0) = .next t ∧ Answered ⟨.ok, d j⟩ (normalised .enc32 [4660] 0) t := by
  refine ⟨fun j => (reply (.unpk j) (normalised .enc32 [4660] 0)).rdata, rfl, by decide +kernel, fun j hj =>
    ⟨_, exec_after _ _, ?_⟩⟩
  have h : (reply (.unpk j) (normalised .enc32 [4660] 0)).status = .ok := by revert j; decide +kernel
  rw [← h]; exact answered_after _ _
/-- TableRowsAreExactAndReduced, GeneratedTablesMatchTheFormula: the ends of the ranges. -/
theorem witness_table_ranges : 255 < Mode.enc64.params.V ∧ 0 < Mode.enc64.params.P ∧ 63 < Mode.enc64.params.P ∧
    (255 : Nat) < 256 ∧ (31 : Nat) < 32 ∧ (9 : Nat) ≤ 9 ∧ (57 : Nat) < 58 ∧ (43 : Nat) < 44 := by decide
/-- InstancesDoNotInteract: two systems that share instance 0 only, and a reset pending there. -/
theorem witness_instances : ∃ a b a' b' : System, a.instances[0]? = b.instances[0]? ∧ a ≠ b ∧
    a.stepAt 0 = .next a' ∧ b.stepAt 0 = .next b' ∧
    a.instances[0]? = some { faulted .dec32 .eIdx with pending := [.reset] } :=
  ⟨⟨[{ faulted .dec32 .eIdx with pending := [.reset] }, State.reset]⟩,
    ⟨[{ faulted .dec32 .eIdx with pending := [.reset] }]⟩, _, _, rfl, by decide +kernel, rfl, rfl, rfl⟩
/-- EncodeGivesOrdinaryBase58, DecodeGivesTheDocumentedResult, DecodeOfEncodeIsTheBuffer. -/
theorem witness_buffers : State.reset.pending = [] ∧ (List.replicate 32 (0 : Byte)).length = Width.w32.bytes ∧
    (List.replicate 64 (0xFF : Byte)).length = Width.w64.bytes := by decide
/-- DecodeGivesTheDocumentedResult, length: 45 characters are too long (V-S9), 44 are not (V-H12: an overflow). -/
theorem witness_decode_length : Decodes .w32 (List.replicate 45 0x31) (.error .tooLong) ∧
    Decodes .w32 (List.replicate 44 0x31) (.error .overflow) :=
  ⟨.inl ⟨by decide, rfl⟩, .inr (.inr (.inl ⟨by decide, by decide +kernel, by decide +kernel, rfl⟩))⟩
/-- The zero prefix: 32 `'1'`s are 32 zero bytes, 33 an overflow (V-H8). -/
theorem witness_decode_zero_prefix : Decodes .w32 (List.replicate 32 0x31) (.ok (List.replicate 32 0)) ∧
    Decodes .w32 (List.replicate 33 0x31) (.error .overflow) :=
  ⟨.inr (.inr (.inr ⟨by decide, by decide +kernel, by decide +kernel, by decide +kernel, by decide +kernel⟩)),
    .inr (.inr (.inl ⟨by decide, by decide +kernel, by decide +kernel, rfl⟩))⟩
/-- The magnitude: `2^256 - 1` is 32 bytes of `0xFF` (V-H10), `2^256` an overflow (V-H11). -/
theorem witness_decode_magnitude :
    Decodes .w32 ("JEKNVnkbo3jma5nREBBJCDoXFVeKkD56V3xKrvRmWxFG".toList.map fun c => BitVec.ofNat 8 c.toNat)
      (.ok (List.replicate 32 0xFF)) ∧
    Decodes .w32 ("JEKNVnkbo3jma5nREBBJCDoXFVeKkD56V3xKrvRmWxFH".toList.map fun c => BitVec.ofNat 8 c.toNat)
      (.error .overflow) :=
  ⟨.inr (.inr (.inr ⟨by decide +kernel, by decide +kernel, by decide +kernel, by decide +kernel, by decide +kernel⟩)),
    .inr (.inr (.inl ⟨by decide +kernel, by decide +kernel, by decide +kernel, rfl⟩))⟩
/-- The first character outside the alphabet: `"11O1"` at position 2, `"0"` at position 0 (V-S8). -/
theorem witness_decode_invalid : Decodes .w32 [0x31, 0x31, 0x4F, 0x31] (.error (.invalidCharacter 2)) ∧
    Decodes .w32 [0x30] (.error (.invalidCharacter 0)) :=
  ⟨.inr (.inl ⟨by decide, 2, by decide, by decide +kernel, by decide +kernel, rfl⟩),
    .inr (.inl ⟨by decide, 0, by decide, by decide, by decide +kernel, rfl⟩)⟩
/-- AlphabetTablesAreInverse: the last digit and the first byte beyond ASCII. -/
theorem witness_alphabet : (57 : Nat) < 58 ∧ 0x80 ≤ (0x80 : Byte).toNat := by decide
/-- AssembledCommandsDecode: a line with a `wdata` operand. -/
theorem witness_assembled : parseLine "WRL 16, 0xFFFFFFFFFFFFFFFF".toList =
    .ok (.command (.wrl 16 0xFFFFFFFFFFFFFFFF)) := by decide +kernel

end Sys2Proof.Tests
end

section
/-! Proofs of the scope's statements (00_scope.md R2, R4): the table of the four modes and the maximum text length.

Both `n` and `L(N)` are least exponents, so each is pinned between two powers of its radix: the power one below is too
small, the power itself is large enough. -/

namespace Sys2Proof.Machine

/-! ### The limb count (R2) -/

/-- One limb fewer than `n` does not hold `g^P - 1`; with `capacity`, `n` is the least limb count that does (R2). -/
theorem pow_pred_limb_count_lt (m : Mode) : m.params.R ^ (m.params.n - 1) < m.params.g ^ m.params.P := by
  cases m <;> decide

/-- `R^c > g^P - 1` is `g^P ≤ R^c`: the weight power is positive, so the subtraction in R2 does not truncate. -/
theorem weight_pow_pred_lt_iff (m : Mode) (y : Nat) :
    m.params.g ^ m.params.P - 1 < y ↔ m.params.g ^ m.params.P ≤ y := by
  have hpos : 0 < m.params.g ^ m.params.P := Nat.pow_pos (Nat.zero_lt_of_lt (weight_base_pos m))
  omega

/-- R2: `n` is the least limb count `c` with `R^c > g^P - 1`. -/
theorem limb_count_isLeast (m : Mode) :
    IsLeast { c | m.params.g ^ m.params.P - 1 < m.params.R ^ c } m.params.n := by
  refine ⟨(weight_pow_pred_lt_iff m _).mpr (capacity m), fun c hc => ?_⟩
  have hfits : m.params.g ^ m.params.P ≤ m.params.R ^ c := (weight_pow_pred_lt_iff m _).mp hc
  have hpow : m.params.R ^ (m.params.n - 1) < m.params.R ^ c := (pow_pred_limb_count_lt m).trans_le hfits
  have hexp : m.params.n - 1 < c :=
    lt_imp_lt_of_le_imp_le (Nat.pow_le_pow_right (radix_pos m)) hpow
  omega

/-! ### The maximum text length (R4) -/

/-- `L(N)` base-58 digits hold every `N`-byte value. -/
theorem byte_pow_le_pow_maxText (w : Width) : 256 ^ w.bytes ≤ 58 ^ w.maxText := by cases w <;> decide

/-- One base-58 digit fewer than `L(N)` does not. -/
theorem pow_pred_maxText_lt_byte_pow (w : Width) : 58 ^ (w.maxText - 1) < 256 ^ w.bytes := by cases w <;> decide

/-- `L(N)` is the base-58 ceiling logarithm of `256^N`. -/
theorem clog_byte_pow (w : Width) : Nat.clog 58 (256 ^ w.bytes) = w.maxText := by
  have hle : Nat.clog 58 (256 ^ w.bytes) ≤ w.maxText := Nat.clog_le_of_le_pow (byte_pow_le_pow_maxText w)
  have hlt : w.maxText - 1 < Nat.clog 58 (256 ^ w.bytes) :=
    (Nat.lt_clog_iff_pow_lt (by decide)).mpr (pow_pred_maxText_lt_byte_pow w)
  omega

/-- The quotient of R4 is one real logarithm to base 58, that of `256^N`. -/
theorem textLength_quotient_eq_logb (w : Width) :
    (w.bytes : ℝ) * Real.log 256 / Real.log 58 = Real.logb (58 : ℕ) ((256 ^ w.bytes : ℕ) : ℝ) := by
  push_cast
  rw [Real.logb_pow, Real.logb, mul_div_assoc]

/-- R4: `L(N) = ceil(N · log(256) / log(58))`. -/
theorem ceil_textLength_quotient (w : Width) : ⌈(w.bytes : ℝ) * Real.log 256 / Real.log 58⌉₊ = w.maxText := by
  rw [textLength_quotient_eq_logb, Real.natCeil_logb_natCast, clog_byte_pow]

/-- The decode tables have `L(N)` positions (R4). -/
theorem decMode_positions (w : Width) : w.decMode.params.P = w.maxText := by cases w <;> rfl

/-! ### The obligations -/

/-- Settles O1: the entries are those of the model's table, and `n` is least by `limb_count_isLeast`. -/
theorem modeParametersAreTheTable : Obligations.ModeParametersAreTheTable := by
  unfold Obligations.ModeParametersAreTheTable
  refine ⟨rfl, rfl, rfl, rfl, ?_, ?_, ?_, ?_, ?_, ?_, limb_count_isLeast⟩
  all_goals decide

/-- Settles O2: the real ceiling is the integer ceiling logarithm of `256^N`, pinned by two powers of 58. -/
theorem maxTextLengthIsTheCeiling : Obligations.MaxTextLengthIsTheCeiling :=
  ⟨ceil_textLength_quotient, rfl, rfl, decMode_positions⟩

end Sys2Proof.Machine
end

section
/-! Proofs of the state's statements (10_state.md R17, R20): the limbs that are unspecified after reset never show, and
the transitions of `PHASE`.

Outside a call, in IDLE and FAULT, only INIT and RDS do their work: INIT overwrites every register and RDS reads none of
the limbs. So engines that differ in hidden limbs answer alike, and inside a call such engines are equal. -/

namespace Sys2Proof.Machine

open Sys2Proof.Claims

/-! ### Hidden limbs (R20) -/

/-- The engines' part of `LimbsHidden`: the same control state, and the same limbs within a call. -/
structure Engine.HiddenEq (e f : Engine) : Prop where
  mode : e.mode = f.mode
  phase : e.phase = f.phase
  err : e.err = f.err
  cout : e.cout = f.cout
  limbs : e.phase = .accum ∨ e.phase = .normd → ∀ i < NMAX, f.limb i = e.limb i

theorem limbsHidden_iff (s t : State) : LimbsHidden s t ↔
    s.pending = t.pending ∧ s.responses = t.responses ∧ s.engine.HiddenEq t.engine :=
  ⟨fun ⟨hpend, hresp, hm, hp, he, hc, hl⟩ => ⟨hpend, hresp, hm, hp, he, hc, hl⟩,
    fun ⟨hpend, hresp, hm, hp, he, hc, hl⟩ => ⟨hpend, hresp, hm, hp, he, hc, hl⟩⟩

theorem Engine.HiddenEq.refl (e : Engine) : e.HiddenEq e := ⟨rfl, rfl, rfl, rfl, fun _ _ _ => rfl⟩

/-- Within a call nothing is hidden. -/
theorem Engine.HiddenEq.eq_of_call {e f : Engine} (h : e.HiddenEq f) (hc : e.phase = .accum ∨ e.phase = .normd) :
    e = f :=
  engine_ext e f (fun i hi => (h.limbs hc i hi).symm) h.cout h.mode h.phase h.err

/-- A fault hides the limbs, whatever they were. -/
theorem Engine.HiddenEq.raiseFault {e f : Engine} (h : e.HiddenEq f) (c : FaultCode) :
    (raiseFault c e).1.HiddenEq (raiseFault c f).1 :=
  ⟨h.mode, rfl, rfl, h.cout, by simp⟩

/-- `STATUS` shows no limb (R15). -/
theorem Engine.HiddenEq.statusWord_eq {e f : Engine} (h : e.HiddenEq f) : e.statusWord = f.statusWord := by
  simp only [Engine.statusWord, Engine.cnz, h.mode, h.phase, h.err, h.cout]

/-- INIT leaves nothing of the engine before it (R80). -/
theorem beginCall_eq_beginCall (m : Mode) (e f : Engine) : beginCall m e = beginCall m f := rfl

/-- Outside a call only INIT and RDS are admitted (R17). -/
theorem admits_outside_call {i : Instr} {p : Phase} (hc : ¬ (p = .accum ∨ p = .normd))
    (ha : admits i.opcode p = true) : (∃ m, i = .init m) ∨ i = .rds := by
  cases p with
  | accum => exact absurd (.inl rfl) hc
  | normd => exact absurd (.inr rfl) hc
  | idle | fault =>
    cases i with
    | init m => exact .inl ⟨m, rfl⟩
    | rds => exact .inr rfl
    | acc _ _ | norm | unpk _ | rdl _ | wrl _ _ | rdt _ _ _ | rdc => exact absurd ha Bool.false_ne_true

/-- RDS completes in every phase. -/
theorem answer_rds (e : Engine) : answer .rds e = respondOk e.statusWord e := answer_body .rds e rfl rfl

/-- No command shows a hidden limb: the responses are the same and what was hidden stays so. -/
theorem answer_hiddenEq (i : Instr) {e f : Engine} (h : e.HiddenEq f) :
    (answer i e).1.HiddenEq (answer i f).1 ∧ (answer i e).2 = (answer i f).2 := by
  by_cases hc : e.phase = .accum ∨ e.phase = .normd
  · obtain rfl := h.eq_of_call hc
    exact ⟨.refl _, rfl⟩
  cases ha : admits i.opcode e.phase with
  | true =>
    obtain ⟨m, rfl⟩ | rfl := admits_outside_call hc ha
    · rw [answer_init, answer_init, beginCall_eq_beginCall m e f]
      exact ⟨.refl _, rfl⟩
    · rw [answer_rds, answer_rds, h.statusWord_eq]
      exact ⟨h, rfl⟩
  | false =>
    by_cases hp : e.phase = .fault
    · have hp' : f.phase = .fault := h.phase ▸ hp
      rw [answer_fault i e hp (hp ▸ ha), answer_fault i f hp' (hp ▸ ha)]
      exact ⟨h, rfl⟩
    · rw [answer_notAdmitted i e hp ha, answer_notAdmitted i f (h.phase ▸ hp) (h.phase ▸ ha)]
      exact ⟨h.raiseFault _, rfl⟩

/-- An ill-formed word shows no hidden limb. -/
theorem rejectWord_hiddenEq {e f : Engine} (h : e.HiddenEq f) :
    (rejectWord e).1.HiddenEq (rejectWord f).1 ∧ (rejectWord e).2 = (rejectWord f).2 := by
  by_cases hp : e.phase = .fault
  · rw [rejectWord_fault e hp, rejectWord_fault f (h.phase ▸ hp)]
    exact ⟨h, rfl⟩
  · rw [rejectWord_running e hp, rejectWord_running f (h.phase ▸ hp)]
    exact ⟨h.raiseFault _, rfl⟩

/-- Machines that differ only in hidden limbs take the same step and differ only in hidden limbs after it. -/
theorem step_limbsHidden {s t : State} (h : LimbsHidden s t) :
    ∃ s' t', step s = .next s' ∧ step t = .next t' ∧ LimbsHidden s' t' := by
  obtain ⟨hpend, hresp, he⟩ := (limbsHidden_iff s t).mp h
  cases hs : s.pending with
  | nil => exact ⟨s, t, step_idle s hs, step_idle t (hpend ▸ hs), h⟩
  | cons x rest =>
    have ht : t.pending = x :: rest := hpend ▸ hs
    cases x with
    | reset =>
      exact ⟨_, _, step_reset s rest hs, step_reset t rest ht, (limbsHidden_iff _ _).mpr ⟨rfl, hresp, .refl _⟩⟩
    | request w wd =>
      cases hd : decode w wd with
      | ok i =>
        obtain ⟨hkept, hreply⟩ := answer_hiddenEq i he
        refine ⟨_, _, (step_command s w wd rest i hs hd).trans (exec_next i _),
          (step_command t w wd rest i ht hd).trans (exec_next i _), (limbsHidden_iff _ _).mpr ⟨rfl, ?_, hkept⟩⟩
        simp only [hresp, hreply]
      | error err =>
        obtain ⟨hkept, hreply⟩ := rejectWord_hiddenEq he
        refine ⟨_, _, step_illFormed s w wd rest err hs hd, step_illFormed t w wd rest err ht hd,
          (limbsHidden_iff _ _).mpr ⟨rfl, ?_, hkept⟩⟩
        simp only [hresp, hreply]

/-- After reset `STATUS` is 0 (R20). -/
theorem statusWord_reset : Engine.reset.statusWord = 0 := by decide

/-- Settles O3: the reset values by evaluation; the limbs never show by `step_limbsHidden`. -/
theorem resetValuesAndUnobservableLimbs : Obligations.ResetValuesAndUnobservableLimbs := by
  refine ⟨⟨rfl, rfl, rfl, rfl, rfl, _, exec_next .rds State.reset, ?_⟩, fun s t => step_limbsHidden⟩
  simp [State.reset, answer_rds, statusWord_reset]

/-! ### The phase after a command (R17) -/

/-- The model's admission table is the table of R17. -/
theorem admits_iff_admitted (i : Instr) (p : Phase) : admits i.opcode p = true ↔ Admitted i p := by
  cases i <;> cases p <;> simp [Instr.opcode, admits, Admitted]

theorem raiseFault_status_ne_ok (c : FaultCode) (e : Engine) : (raiseFault c e).2.status ≠ .ok := by
  cases c <;> simp [FaultCode.status]

/-- Where a command that completes in phase `p` leaves the engine: INIT and NORM move it, the others do not. -/
def phaseAfter : Instr → Phase → Phase
  | .init _, _ => .accum
  | .norm, _ => .normd
  | .acc _ _, p | .unpk _, p | .rdl _, p | .wrl _ _, p | .rdt _ _ _, p | .rds, p | .rdc, p => p

/-- ACC after its checks overflows or stays in its phase. -/
theorem accumulateRow_overflow_or_phase (v p : Nat) (e : Engine) :
    accumulateRow v p e = raiseFault .eOvf e ∨ (accumulateRow v p e).1.phase = e.phase := by
  unfold accumulateRow
  split
  · exact .inl rfl
  · exact .inr rfl

/-- NORM after its checks overflows or goes to NORMD. -/
theorem normalizeLimbs_overflow_or_phase (e : Engine) :
    normalizeLimbs e = raiseFault .eOvf e ∨ (normalizeLimbs e).1.phase = .normd := by
  unfold normalizeLimbs
  split
  · exact .inl rfl
  · exact .inr rfl

/-- A body overflows or moves the phase as R17 says. -/
theorem bodyOf_overflow_or_phase (i : Instr) (e : Engine) :
    bodyOf i e = raiseFault .eOvf e ∨ (bodyOf i e).1.phase = phaseAfter i e.phase := by
  cases i with
  | acc v p => exact accumulateRow_overflow_or_phase v p e
  | norm => exact normalizeLimbs_overflow_or_phase e
  | init _ | unpk _ | rdl _ | wrl _ _ | rdt _ _ _ | rds | rdc => exact .inr rfl

/-- A command that completes was admitted and moves the phase as R17 says. -/
theorem answer_of_ok (i : Instr) (e : Engine) (hok : (answer i e).2.status = .ok) :
    Admitted i e.phase ∧ (answer i e).1.phase = phaseAfter i e.phase := by
  obtain ⟨_, _, h⟩ | ⟨_, _, h⟩ | ⟨_, _, _, h⟩ | ⟨ha, _, h⟩ := answer_cases i e <;> rw [h] at hok ⊢
  · exact absurd hok (by simp)
  · exact absurd hok (raiseFault_status_ne_ok _ e)
  · exact absurd hok (raiseFault_status_ne_ok _ e)
  · obtain hov | hphase := bodyOf_overflow_or_phase i e
    · exact absurd (hov ▸ hok) (raiseFault_status_ne_ok _ e)
    · exact ⟨(admits_iff_admitted i _).mp ha, hphase⟩

/-- A command that does not complete leaves the engine in FAULT. -/
theorem answer_phase_of_not_ok (i : Instr) (e : Engine) (hne : (answer i e).2.status ≠ .ok) :
    (answer i e).1.phase = .fault := by
  obtain ⟨hp, _, h⟩ | ⟨_, _, h⟩ | ⟨_, _, _, h⟩ | ⟨_, _, h⟩ := answer_cases i e <;> rw [h] at hne ⊢
  · exact hp
  · rfl
  · rfl
  · obtain hok | ⟨_, hov⟩ := bodyOf_status i e
    · exact absurd hok hne
    · rw [hov]; rfl

/-! ### Commands not admitted (R17, R152, R155) -/

/-- A body neither refuses a command nor ignores it: those are the front end's answers. -/
theorem bodyOf_status_ne (i : Instr) (e : Engine) :
    (bodyOf i e).2.status ≠ .eSeq ∧ (bodyOf i e).2.status ≠ .eFlt := by
  obtain hok | ⟨_, hov⟩ := bodyOf_status i e
  · simp [hok]
  · simp [hov, FaultCode.status]

theorem answer_eSeq_iff (i : Instr) (e : Engine) :
    (answer i e).2.status = .eSeq ↔ e.phase ≠ .fault ∧ ¬ Admitted i e.phase := by
  rw [← admits_iff_admitted]
  obtain ⟨hp, _, h⟩ | ⟨hp, ha, h⟩ | ⟨_, ha, _, h⟩ | ⟨ha, _, h⟩ := answer_cases i e
  · simp [h, hp]
  · simp [h, hp, ha, FaultCode.status]
  · simp [h, ha, FaultCode.status]
  · simp [h, ha, (bodyOf_status_ne i e).1]

theorem answer_eFlt_iff (i : Instr) (e : Engine) :
    (answer i e).2.status = .eFlt ↔ e.phase = .fault ∧ ¬ Admitted i .fault := by
  rw [← admits_iff_admitted]
  obtain ⟨hp, ha, h⟩ | ⟨hp, _, h⟩ | ⟨hp, _, _, h⟩ | ⟨ha, _, h⟩ := answer_cases i e
  · simp [h, hp, ha]
  · simp [h, hp, FaultCode.status]
  · simp [h, hp, FaultCode.status]
  · have hadm : e.phase = .fault → admits i.opcode .fault = true := fun hp => hp ▸ ha
    simpa [h, (bodyOf_status_ne i e).2] using hadm

/-- A command answered `E_FLT` was ignored. -/
theorem answer_eq_ignoreFaulted (i : Instr) (e : Engine) (h : (answer i e).2.status = .eFlt) :
    answer i e = ignoreFaulted e := by
  obtain ⟨hp, hna⟩ := (answer_eFlt_iff i e).mp h
  rw [← admits_iff_admitted, Bool.not_eq_true] at hna
  exact answer_fault i e hp hna

/-! ### NORMD, and ill-formed words -/

/-- Every command NORMD admits, but for INIT, is a read. -/
theorem bodyOf_engine_of_normd {i : Instr} (e : Engine) (ha : admits i.opcode .normd = true)
    (hi : i.opcode ≠ .init) : (bodyOf i e).1 = e := by
  cases i with
  | init _ => exact absurd rfl hi
  | acc _ _ | wrl _ _ | norm => exact absurd ha Bool.false_ne_true
  | unpk _ | rdl _ | rdt _ _ _ | rds | rdc => rfl

/-- After NORM no command but INIT changes a limb (R17). -/
theorem answer_limb_of_normd {i : Instr} {e : Engine} (hp : e.phase = .normd) (hi : i.opcode ≠ .init) (j : Nat) :
    (answer i e).1.limb j = e.limb j := by
  obtain ⟨_, _, h⟩ | ⟨_, _, h⟩ | ⟨_, _, _, h⟩ | ⟨ha, _, h⟩ := answer_cases i e <;> rw [h]
  · rfl
  · rfl
  · rfl
  · rw [bodyOf_engine_of_normd e (hp ▸ ha) hi]

theorem rejectWord_phase (e : Engine) : (rejectWord e).1.phase = .fault := by
  by_cases hp : e.phase = .fault
  · rw [rejectWord_fault e hp]; exact hp
  · rw [rejectWord_running e hp]; rfl

/-- An ill-formed word leaves FAULT as it is, and enters it from any other phase (R151, R155). -/
theorem step_illFormed_phase {s t : State} {w : CmdWord} {wd : Word} {rest : List Input} {err : DecodeError}
    (hs : s.pending = .request w wd :: rest) (hd : decode w wd = .error err) (h : step s = .next t) :
    t.engine.phase = .fault ∧ (s.engine.phase = .fault → Ignored (taken s rest) t) := by
  rw [step_illFormed s w wd rest err hs hd] at h
  cases h
  refine ⟨rejectWord_phase s.engine, fun hp => ?_⟩
  rw [rejectWord_fault s.engine hp]
  exact ⟨⟨rfl, rfl⟩, fun _ _ => rfl, rfl, rfl, rfl, rfl⟩

/-- Settles O26: the phases by `answer_of_ok` and `answer_phase_of_not_ok`, the refusals by the front end, the frozen
limbs by `answer_limb_of_normd`. -/
theorem phaseMovesOnlyOneWay : Obligations.PhaseMovesOnlyOneWay := by
  refine ⟨?_, ?_, ?_, ?_, fun s w wd rest err t hs hd h => step_illFormed_phase hs hd h⟩
  · intro i s t r h ha
    obtain rfl := answered_response h ha
    have hok := answer_of_ok i s.engine
    have hne := answer_phase_of_not_ok i s.engine
    rw [(exec_next_inv h).1]
    cases i with
    | init m => rw [answer_init]; exact ⟨rfl, rfl⟩
    | rds => rw [answer_rds]; exact ⟨rfl, rfl⟩
    | norm | rdl _ | rdt _ _ _ | rdc => exact ⟨hok, hne⟩
    | acc _ _ | wrl _ _ | unpk _ =>
      refine ⟨fun hr => ?_, hne⟩
      obtain ⟨hadm, hphase⟩ := hok hr
      exact ⟨hadm, hphase.trans hadm⟩
  · intro i s t r h ha
    obtain rfl := answered_response h ha
    refine ⟨answer_eSeq_iff i s.engine, answer_eFlt_iff i s.engine, fun hr => ?_⟩
    obtain ⟨t', h', hign⟩ := exec_ignored (answer_eq_ignoreFaulted i s.engine hr)
    rw [h] at h'
    cases h'
    exact hign
  · intro i s t hp hi h j _
    rw [(exec_next_inv h).1]
    exact answer_limb_of_normd hp hi j
  · intro s rest t hs h
    rw [step_reset s rest hs] at h
    cases h
    rfl

end Sys2Proof.Machine
end

section
/-! Proofs of the encoding's statements (30_encoding.md R62, R66, R68): the decoder is the opcode map, `wdata` reaches
WRL alone, and what a response carries.

`decode_ok_iff` names the one row that accepts a word, so the first two are about what that row's command is built from.
The third is about the response: the fault answers carry zero, and each body carries its command's result. -/

namespace Sys2Proof

/-! ### The opcode map, row by row (R62) -/

/-- `w & mask == match`, as an equation of words. -/
theorem accepts_iff_mask (o : Opcode) (w : CmdWord) :
    o.row.accepts w = true ↔ w &&& o.row.mask = o.row.pat := beq_iff_eq

/-- The rows of the table of R62, in its order. -/
theorem exists_opcode_iff (p : Opcode → Prop) : (∃ o, p o) ↔
    p .init ∨ p .acc ∨ p .norm ∨ p .unpk ∨ p .rdl ∨ p .wrl ∨ p .rdt ∨ p .rds ∨ p .rdc := by
  constructor
  · rintro ⟨o, h⟩
    cases o <;> simp only [h, true_or, or_true]
  · rintro (h | h | h | h | h | h | h | h | h) <;> exact ⟨_, h⟩

/-- INIT's operand is the mode whose code stands in the word: every code has exactly one mode (R16, R64). -/
theorem eq_build_init_iff (w : CmdWord) (wd : Word) (i : Instr) :
    i = Opcode.init.build w wd ↔ ∃ m : Mode, m.code = w.extractLsb' 0 2 ∧ i = .init m := by
  constructor
  · rintro rfl
    exact ⟨Mode.ofCode (w.extractLsb' 0 2), mode_code_ofCode _, rfl⟩
  · rintro ⟨m, hm, rfl⟩
    exact congrArg Instr.init ((mode_ofCode_code m).symm.trans (congrArg Mode.ofCode hm))

/-- Settles O14: one row accepts the word (`decode_ok_iff`), and the nine rows are the nine disjuncts. -/
theorem decodeFollowsTheOpcodeMap : Obligations.DecodeFollowsTheOpcodeMap := by
  intro w wd i
  rw [decode_ok_iff, exists_opcode_iff, eq_build_init_iff]
  simp only [accepts_iff_mask]
  exact Iff.rfl

/-! ### `wdata` (R66) -/

/-- Only WRL is built from `wdata`. -/
theorem build_eq_build_of_ne_wrl {o : Opcode} (ho : o ≠ .wrl) (w : CmdWord) (wd wd' : Word) :
    o.build w wd = o.build w wd' := by
  cases o with
  | wrl => exact absurd rfl ho
  | init | acc | norm | unpk | rdl | rdt | rds | rdc => rfl

/-- A word that decodes to a command other than WRL decodes to it whatever `wdata` is. -/
theorem decode_ok_of_not_wrl {w : CmdWord} {wd : Word} {i : Instr} (h : decode w wd = .ok i)
    (hi : i.opcode ≠ .wrl) (wd' : Word) : decode w wd' = .ok i := by
  obtain ⟨o, hrow, rfl⟩ := (decode_ok_iff w wd i).mp h
  have ho : o ≠ .wrl := by rintro rfl; exact hi rfl
  exact (decode_ok_iff w wd' _).mpr ⟨o, hrow, build_eq_build_of_ne_wrl ho w wd wd'⟩

/-- Whether a word is ill formed does not depend on `wdata`. -/
theorem decode_error_of_error {w : CmdWord} {wd : Word} {err : DecodeError} (h : decode w wd = .error err)
    (wd' : Word) : ∃ err', decode w wd' = .error err' :=
  (decode_error_iff w wd').mpr ((decode_error_iff w wd).mp ⟨err, h⟩)

end Sys2Proof

namespace Sys2Proof.Machine

open Sys2Proof.Claims

/-- Settles O28: either both steps run the same command, or both reject the word. -/
theorem wdataMattersToWrlOnly : Obligations.WdataMattersToWrlOnly := by
  intro s w wd wd' rest hw
  cases hd : decode w wd with
  | ok i =>
    have hi : i.opcode ≠ .wrl := by
      cases i with
      | wrl j d => exact absurd hd (hw j d)
      | init _ | acc _ _ | norm | unpk _ | rdl _ | rdt _ _ _ | rds | rdc => exact nofun
    rw [step_command _ w wd rest i rfl hd, step_command _ w wd' rest i rfl (decode_ok_of_not_wrl hd hi wd')]
  | error err =>
    obtain ⟨err', hd'⟩ := decode_error_of_error hd wd'
    rw [step_illFormed _ w wd rest err rfl hd, step_illFormed _ w wd' rest err' rfl hd']

/-! ### `rdata` (R68) -/

/-- What a completing command answers with (R68): the result of the five that read, zero for the four that write. -/
def resultOf : Instr → Engine → Word
  | .unpk j, e => zext64 (digitValue e j)
  | .rdl i, e => e.limb i
  | .rdt v p i, e => zext64 (tableWord e.mode v p i)
  | .rds, e => e.statusWord
  | .rdc, e => e.cout
  | .init _, _ | .acc _ _, _ | .norm, _ | .wrl _ _, _ => 0

/-- ACC answers with zero, complete or not. -/
theorem accumulateRow_rdata (v p : Nat) (e : Engine) : (accumulateRow v p e).2.rdata = 0 := by
  unfold accumulateRow
  split
  · rfl
  · rfl

/-- NORM answers with zero, complete or not. -/
theorem normalizeLimbs_rdata (e : Engine) : (normalizeLimbs e).2.rdata = 0 := by
  unfold normalizeLimbs
  split
  · rfl
  · rfl

theorem bodyOf_rdata (i : Instr) (e : Engine) : (bodyOf i e).2.rdata = resultOf i e := by
  cases i with
  | acc v p => exact accumulateRow_rdata v p e
  | norm => exact normalizeLimbs_rdata e
  | init _ | unpk _ | rdl _ | wrl _ _ | rdt _ _ _ | rds | rdc => rfl

/-- A command that completes answers with its result. -/
theorem answer_rdata_of_ok (i : Instr) (e : Engine) (hok : (answer i e).2.status = .ok) :
    (answer i e).2.rdata = resultOf i e := by
  obtain ⟨_, _, h⟩ | ⟨_, _, h⟩ | ⟨_, _, _, h⟩ | ⟨_, _, h⟩ := answer_cases i e <;> rw [h] at hok ⊢
  · exact absurd hok (by simp)
  · exact absurd hok (raiseFault_status_ne_ok _ e)
  · exact absurd hok (raiseFault_status_ne_ok _ e)
  · exact bodyOf_rdata i e

/-- A command that does not complete answers with zero: it was ignored or it faulted. -/
theorem answer_rdata_of_not_ok (i : Instr) (e : Engine) (hne : (answer i e).2.status ≠ .ok) :
    (answer i e).2.rdata = 0 := by
  obtain ⟨_, _, h⟩ | ⟨_, _, h⟩ | ⟨_, _, _, h⟩ | ⟨_, _, h⟩ := answer_cases i e <;> rw [h] at hne ⊢
  · rfl
  · rfl
  · rfl
  · obtain hok | ⟨_, hov⟩ := bodyOf_status i e
    · exact absurd hok hne
    · rw [hov]; rfl

/-- A digit is no larger than the limb it is cut from, so its zero extension is the digit. -/
theorem zext64_digitValue_toNat (e : Engine) (j : Nat) : (zext64 (digitValue e j)).toNat = digitValue e j := by
  have hle : digitValue e j ≤ (e.limb (digitLimb e.params j)).toNat :=
    (Nat.mod_le _ _).trans (Nat.div_le_self _ _)
  exact Nat.mod_eq_of_lt (hle.trans_lt (e.limb _).isLt)

/-- A table word is below `R ≤ 2^32`, so its zero extension is the table word. -/
theorem zext64_tableWord_toNat (m : Mode) (v p i : Nat) : (zext64 (tableWord m v p i)).toNat = tableWord m v p i := by
  have hlt : tableWord m v p i < 2 ^ 32 := (tableWord_lt m v p i).trans_le (radix_le m)
  exact Nat.mod_eq_of_lt (hlt.trans (by decide))

/-- An ill-formed word is answered with a failure and zero (R65, R68). -/
theorem rejectWord_response (e : Engine) : (rejectWord e).2.status ≠ .ok ∧ (rejectWord e).2.rdata = 0 := by
  by_cases hp : e.phase = .fault
  · rw [rejectWord_fault e hp]
    exact ⟨nofun, rfl⟩
  · rw [rejectWord_running e hp]
    exact ⟨raiseFault_status_ne_ok _ e, rfl⟩

/-- The response to an ill-formed word, from the log of responses. -/
theorem answered_illFormed {s t : State} {w : CmdWord} {wd : Word} {rest : List Input} {err : DecodeError}
    {r : Response} (hs : s.pending = .request w wd :: rest) (hd : decode w wd = .error err)
    (h : step s = .next t) (ha : Answered r (taken s rest) t) : r = (rejectWord s.engine).2 := by
  rw [step_illFormed s w wd rest err hs hd] at h
  cases h
  simpa using ha.1.symm

/-- Settles O29: zero by `answer_rdata_of_not_ok`, the result by `answer_rdata_of_ok`, ill-formed words by
`rejectWord_response`. -/
theorem responseDataIsTheResultOrZero : Obligations.ResponseDataIsTheResultOrZero := by
  constructor
  · intro i s t r h ha
    obtain rfl := answered_response h ha
    refine ⟨answer_rdata_of_not_ok i s.engine, fun hok => ?_⟩
    have hres := answer_rdata_of_ok i s.engine hok
    cases i with
    | unpk j => exact (congrArg BitVec.toNat hres).trans (zext64_digitValue_toNat s.engine j)
    | rdt v p k => exact (congrArg BitVec.toNat hres).trans (zext64_tableWord_toNat s.engine.mode v p k)
    | init _ | acc _ _ | norm | rdl _ | wrl _ _ | rds | rdc => exact hres
  · intro s w wd rest err t r hs hd h ha
    obtain rfl := answered_illFormed hs hd h ha
    exact rejectWord_response s.engine

end Sys2Proof.Machine
end

section
/-! Proofs of the control commands' statements (40_control.md R80 to R82): INIT, RDS and RDC.

Two shared facts carry the clauses about what does not complete: a word whose opcode is a command's and whose
must-be-zero field is not zero is rejected (`rejects_of_mustBeZero`), and a command not admitted in its phase is refused
(`refuses_of_not_admitted`). The rest is the state INIT begins a call with, the sum of fields `STATUS` is, and the carry
out of a NORM whose value fits its limbs. -/

namespace Sys2Proof

/-! ### Ill-formed words of a command (R65) -/

theorem Opcode.op_injective : Function.Injective Opcode.op := by
  intro o o' h
  revert h
  cases o <;> cases o' <;> decide

theorem Opcode.low_le (o : Opcode) : o.low ≤ 28 := by cases o <;> decide

/-- A row accepts only words with its command's `OP` field (R62). -/
theorem op_of_accepts {o : Opcode} {w : CmdWord} (h : o.row.accepts w = true) : w.extractLsb' 28 4 = o.op := by
  rw [accepts_iff] at h
  have hdiv : w.toNat / 2 ^ 28 = o.op.toNat := by
    calc w.toNat / 2 ^ 28 = w.toNat / 2 ^ o.low / 2 ^ (28 - o.low) := by
          rw [Nat.div_div_eq_div_mul, ← pow_add, Nat.add_sub_cancel' o.low_le]
      _ = o.op.toNat := by rw [h, Nat.mul_div_cancel _ (Nat.two_pow_pos _)]
  exact BitVec.eq_of_toNat_eq ((fieldsOf_op_toNat w).trans hdiv)

/-- A row accepts only words whose must-be-zero field, between the operands and `OP`, is zero (R62). -/
theorem mustBeZero_of_accepts {o : Opcode} {w : CmdWord} (h : o.row.accepts w = true) :
    w.extractLsb' o.low (28 - o.low) = 0 := by
  rw [accepts_iff] at h
  refine BitVec.eq_of_toNat_eq ?_
  rw [BitVec.extractLsb'_toNat, Nat.shiftRight_eq_div_pow, h, Nat.mul_mod_left]
  rfl

/-- A word with a command's `OP` field and a must-be-zero bit set is no command's word. -/
theorem decode_error_of_mustBeZero (o : Opcode) {w : CmdWord} (hop : w.extractLsb' 28 4 = o.op)
    (hz : w.extractLsb' o.low (28 - o.low) ≠ 0) (wd : Word) : ∃ err, decode w wd = .error err := by
  refine (decode_error_iff w wd).mpr fun o' => Bool.eq_false_iff.mpr fun hacc => hz ?_
  obtain rfl : o' = o := Opcode.op_injective ((op_of_accepts hacc).symm.trans hop)
  exact mustBeZero_of_accepts hacc

end Sys2Proof

namespace Sys2Proof.Machine

open Sys2Proof.Claims

/-- The engine rejects every word that does not decode (R151, R155). -/
theorem rejects_of_decode_error {w : CmdWord} (h : ∀ wd, ∃ err, decode w wd = .error err) : Rejects w := by
  intro wd rest s hs
  obtain ⟨err, hd⟩ := h wd
  refine ⟨_, step_illFormed s w wd rest err hs hd, ?_⟩
  split
  case isTrue hp =>
    rw [rejectWord_fault s.engine hp]
    exact ⟨⟨rfl, rfl⟩, fun _ _ => rfl, rfl, rfl, rfl, rfl⟩
  case isFalse hp =>
    rw [rejectWord_running s.engine hp]
    exact ⟨rfl, rfl, ⟨rfl, rfl⟩, fun _ _ => rfl, rfl, rfl⟩

/-- The engine rejects a word with a command's `OP` field and a must-be-zero bit set (R65). -/
theorem rejects_of_mustBeZero (o : Opcode) {w : CmdWord} (hop : w.extractLsb' 28 4 = o.op)
    (hz : w.extractLsb' o.low (28 - o.low) ≠ 0) : Rejects w :=
  rejects_of_decode_error (decode_error_of_mustBeZero o hop hz)

/-- A command not admitted in its phase is refused (R17, R152, R155). -/
theorem refuses_of_not_admitted {i : Instr} {s : State} (h : ¬ Admitted i s.engine.phase) : Refuses i s := by
  rw [← admits_iff_admitted, Bool.not_eq_true] at h
  by_cases hp : s.engine.phase = .fault
  · simp only [Refuses, if_pos hp]
    exact exec_ignored (answer_fault i s.engine hp (hp ▸ h))
  · simp only [Refuses, if_neg hp]
    exact exec_faulted (answer_notAdmitted i s.engine hp h)

/-! ### INIT (R80) -/

theorem decode_initWord (m : Mode) (wd : Word) :
    decode (0x10000000#32 ||| m.code.setWidth 32) wd = .ok (.init m) :=
  decode_of_row .init _ wd _ (by cases m <;> decide) (by cases m <;> rfl)

/-- The value of a fresh call is 0 (R23, R80). -/
@[simp] theorem beginCall_val (m : Mode) (e : Engine) : (beginCall m e).val = 0 := by
  simp [Engine.val, Engine.limbVal]

@[simp] theorem beginCall_cnz (m : Mode) (e : Engine) : (beginCall m e).cnz = 0 := by simp [Engine.cnz]

/-- INIT leaves the engine at the start of a call, whatever it was. -/
theorem exec_init_engine {m : Mode} {s t : State} (h : exec (.init m) s = .next t) :
    t.engine = beginCall m s.engine := by
  rw [(exec_next_inv h).1, answer_init, respondOk_engine]

/-- Outside a call every command but INIT stays in its phase or faults: the one other command admitted in IDLE and FAULT
is RDS, a read. -/
theorem answer_phase_outside_call {i : Instr} {e : Engine} (hc : ¬ (e.phase = .accum ∨ e.phase = .normd))
    (hi : i.opcode ≠ .init) : (answer i e).1.phase = e.phase ∨ (answer i e).1.phase = .fault := by
  by_cases hok : (answer i e).2.status = .ok
  · obtain ⟨hadm, -⟩ := answer_of_ok i e hok
    obtain ⟨m, rfl⟩ | rfl := admits_outside_call hc ((admits_iff_admitted i _).mpr hadm)
    · exact absurd rfl hi
    · exact .inl (by rw [answer_rds, respondOk_engine])
  · exact .inr (answer_phase_of_not_ok i e hok)

/-- Settles O5: the fresh call by `answer_init`, the only exit from IDLE and FAULT by `answer_phase_outside_call`. -/
theorem initBeginsACall : Obligations.InitBeginsACall := by
  refine ⟨decode_initWord, ?_, ?_, fun w => rejects_of_mustBeZero .init, ?_⟩
  · intro m s
    refine ⟨_, exec_next (.init m) s, ?_⟩
    rw [answer_init]
    refine ⟨⟨rfl, rfl⟩, rfl, ?_, rfl, ?_, rfl, rfl, ?_⟩ <;> simp
  · intro i s t hi h
    have hphase := fun hc => answer_phase_outside_call (e := s.engine) hc hi
    rw [← (exec_next_inv h).1] at hphase
    constructor <;> intro hp <;> simpa [hp] using hphase
  · intro m m' s t u v _ htu hsv
    rw [exec_init_engine htu, exec_init_engine hsv, beginCall_eq_beginCall m' t.engine s.engine]

/-! ### RDS (R81) -/

theorem cnz_toNat (e : Engine) : e.cnz.toNat = if e.cout = 0 then 0 else 1 := by
  unfold Engine.cnz
  split <;> rfl

/-- `STATUS` as a number: each field at its place, the bits above zero (R15). -/
theorem statusWord_toNat (e : Engine) : e.statusWord.toNat =
    e.mode.code.toNat + 4 * e.phase.code.toNat + 16 * (errCode e.err).toNat + 128 * e.cnz.toNat := by
  have hcnz := e.cnz.isLt; have herr := (errCode e.err).isLt
  have hphase := e.phase.code.isLt; have hmode := e.mode.code.isLt
  simp only [Engine.statusWord, BitVec.toNat_append]
  rw [← Nat.shiftLeft_add_eq_or_of_lt hcnz, ← Nat.shiftLeft_add_eq_or_of_lt herr,
    ← Nat.shiftLeft_add_eq_or_of_lt hphase, ← Nat.shiftLeft_add_eq_or_of_lt hmode]
  simp only [Nat.shiftLeft_eq, BitVec.ofNat_eq_ofNat, BitVec.toNat_ofNat]
  omega

/-- Settles O6: RDS only answers (`answer_rds`), with the fields `statusWord_toNat` gives. -/
theorem rdsReadsStatus : Obligations.RdsReadsStatus := by
  refine ⟨fun wd => decode_of_row .rds _ wd _ rfl rfl, fun s => ?_, fun w => rejects_of_mustBeZero .rds⟩
  obtain ⟨t, hexec, hread⟩ := exec_readOnly (answer_rds s.engine)
  exact ⟨t, _, hexec, hread, by rw [statusWord_toNat, cnz_toNat]⟩

/-! ### RDC (R82) -/

/-- Within a call RDC reads `COUT`. -/
theorem exec_rdc {s : State} (hp : s.engine.phase = .accum ∨ s.engine.phase = .normd) :
    ∃ t, exec .rdc s = .next t ∧ ReadOnly s.engine.cout s t :=
  exec_readOnly (answer_body .rdc s.engine ((admits_iff_admitted .rdc _).mpr hp) rfl)

/-- Limbs whose value fits below `R^n` carry nothing out: the last carry is what the pass leaves above `R^n`. -/
theorem carryInto_eq_zero_of_limbVal_lt {e : Engine} (h : e.limbVal < e.params.R ^ e.params.n) :
    carryInto e e.params.n = 0 := by
  have hvalue := carry_value e.params.R e.params.n (fun i => (e.limb i).toNat) (carryInto e) fun _ _ => rfl
  have hle : carryInto e e.params.n * e.params.R ^ e.params.n ≤ e.limbVal :=
    (Nat.le_add_right _ _).trans_eq (hvalue.trans (Nat.zero_add _))
  exact Nat.lt_one_iff.mp (Nat.lt_of_mul_lt_mul_right (hle.trans_lt (h.trans_eq (Nat.one_mul _).symm)))

/-- A NORM of limbs whose value fits leaves phase NORMD with `COUT` zero. -/
theorem answer_norm_cout_eq_zero {e : Engine} (hp : e.phase = .accum) (hval : e.limbVal < e.params.R ^ e.params.n)
    (hok : (answer .norm e).2.status = .ok) : (answer .norm e).1.phase = .normd ∧ (answer .norm e).1.cout = 0 := by
  rw [answer_norm e hp (norm_ok_inv e hp hok), carryInto_eq_zero_of_limbVal_lt hval]
  exact ⟨rfl, rfl⟩

/-- Settles O7: the read by `exec_rdc`, zero in ACCUM by the invariant, zero after NORM by
`answer_norm_cout_eq_zero`. -/
theorem rdcReadsCarryOut : Obligations.RdcReadsCarryOut := by
  refine ⟨fun wd => decode_of_row .rdc _ wd _ rfl rfl, fun s => exec_rdc, ?_, ?_, ?_,
    fun w => rejects_of_mustBeZero .rdc⟩
  · intro s hinv hp
    rw [← hinv.accum_cout hp]
    exact exec_rdc (.inl hp)
  · intro s t r hp hval h ha hok
    rw [answered_response h ha] at hok
    obtain ⟨hphase, hcout⟩ := answer_norm_cout_eq_zero hp hval hok
    rw [← (exec_next_inv h).1] at hphase hcout
    rw [← hcout]
    exact exec_rdc (.inr hphase)
  · intro s hp
    refine refuses_of_not_admitted ?_
    obtain hp | hp := hp <;> simp [hp, Admitted]

end Sys2Proof.Machine
end

section
/-! Proofs of the accumulation's statements (41_accumulate.md R90, R91): ACC and RDT.

The words of a table row are the digits of `v · g^(P-1-p)` in radix `R`, and `n` of them hold that number whole; so the
lanes of an ACC, summed without a carry, still add exactly it to `Val`. RDT reads one of these words. What does not
complete is an operand out of range (`exec_outOfRange`) or a command not admitted (`refuses_of_not_admitted`). -/

namespace Sys2Proof.Machine

open Sys2Proof.Claims

/-- An admitted command with an operand out of range ends in `E_IDX` (R153): INIT and RDS have no operands, so the phase
is not FAULT. -/
theorem exec_outOfRange {i : Instr} {s : State} (ha : Admitted i s.engine.phase) (hr : rangeOf i s.engine = false) :
    ∃ t, exec i s = .next t ∧ Faulted .eIdx s t := by
  rw [← admits_iff_admitted] at ha
  have hp : s.engine.phase ≠ .fault := fun hp =>
    absurd (rangeOf_always i s.engine (hp ▸ ha)) (Bool.eq_false_iff.mp hr)
  exact exec_faulted (answer_outOfRange i s.engine hp ha hr)

/-! ### ACC (R90) -/

theorem decode_accWord {v p : Nat} (hv : v < 256) (hp : p < 256) (wd : Word) :
    decode (0x20000000#32 ||| BitVec.ofNat 32 v <<< 8 ||| BitVec.ofNat 32 p) wd = .ok (.acc v p) := by
  have hw := word_two 0x20000000#32 v p (by decide) hv hp
  simp only [BitVec.toNat_ofNat] at hw
  refine decode_of_row .acc _ wd _ ?_ ?_
  · change _ / 2 ^ 16 = 2 * 2 ^ 12
    omega
  · simp only [Opcode.build, fieldsOf_b_toNat, fieldsOf_a_toNat, hw, Instr.acc.injEq]
    omega

/-- A table row in range is `v · g^(P-1-p)` in radix `R`, nothing truncated (R32). -/
theorem sum_tableWord (m : Mode) {v p : Nat} (hv : v < m.params.V) (hp : p < m.params.P) :
    ∑ i ∈ Finset.range m.params.n, tableWord m v p i * m.params.R ^ i = v * posWeight m p := by
  unfold tableWord
  rw [radix_of_digits, Nat.mod_eq_of_lt (row_lt_capacity m v p hv hp)]

/-- Adding the lanes of a row without carry adds the row's number to the value (R23, R90). -/
theorem accumulated_val {e : Engine} {v p : Nat} (hv : v < e.mode.params.V) (hp : p < e.mode.params.P)
    (h : ∀ i < e.mode.params.n, (e.limb i).toNat + tableWord e.mode v p i < wordLimit) :
    (e.setLanes (laneSums v p e)).val = e.val + v * posWeight e.mode p := by
  have hlimbs : (e.setLanes (laneSums v p e)).limbVal = e.limbVal + v * posWeight e.mode p := by
    simp only [Engine.limbVal, Engine.params, setLanes_mode]
    rw [← sum_tableWord e.mode hv hp, ← Finset.sum_add_distrib]
    refine Finset.sum_congr rfl fun i hi => ?_
    have hi := Finset.mem_range.mp hi
    rw [accumulated_limb v p e i hi (h i hi), Nat.add_mul]
  simp only [Engine.val, Engine.params, setLanes_mode, setLanes_cout, hlimbs, Nat.add_assoc]

/-- ACC in ACCUM, in range, with a lane at `2^64`: the overflow fault. -/
theorem answer_acc_overflow {e : Engine} {v p : Nat} (ha : e.phase = .accum) (hv : v < e.mode.params.V)
    (hp : p < e.mode.params.P) (h : ∃ i < e.mode.params.n, wordLimit ≤ (e.limb i).toNat + tableWord e.mode v p i) :
    answer (.acc v p) e = raiseFault .eOvf e := by
  rw [answer_body (.acc v p) e ((admits_iff_admitted _ _).mpr ha) ((rowInRange_iff _ _ _).mpr ⟨hv, hp⟩)]
  exact accumulateRow_overflow v p e h

/-- Settles O8: the completed ACC by `answer_acc`, its lanes by `accumulated_limb` and its value by `accumulated_val`;
the faults by `exec_outOfRange` and `answer_acc_overflow`. -/
theorem accAddsOneTableRow : Obligations.AccAddsOneTableRow := by
  refine ⟨fun v p wd hv hp => decode_accWord hv hp wd, ?_, ?_, ?_, fun v p s ha => refuses_of_not_admitted ha⟩
  · intro v p s ha hv hp hsum
    refine ⟨_, exec_next (.acc v p) s, ?_⟩
    rw [answer_acc s.engine v p ha hv hp hsum]
    refine ⟨⟨rfl, rfl⟩, fun i hi => accumulated_limb v p s.engine i hi (hsum i hi), fun i hn hi => ?_, rfl, rfl, rfl,
      rfl, accumulated_val hv hp hsum⟩
    exact setLanes_upper s.engine _ i (by rwa [length_laneSums]) hi
  · intro v p s ha hrange
    exact exec_outOfRange ha ((rowInRange_false_iff v p s.engine).mpr hrange)
  · intro v p s ha hv hp hover
    exact exec_faulted (answer_acc_overflow ha hv hp hover)

/-! ### RDT (R91) -/

theorem decode_rdtWord {v p i : Nat} (hv : v < 256) (hp : p < 256) (hi : i < 256) (wd : Word) :
    decode (0x70000000#32 ||| BitVec.ofNat 32 i <<< 16 ||| BitVec.ofNat 32 v <<< 8 ||| BitVec.ofNat 32 p) wd =
      .ok (.rdt v p i) := by
  have hw := word_three 0x70000000#32 i v p (by decide) hi hv hp
  simp only [BitVec.toNat_ofNat] at hw
  refine decode_of_row .rdt _ wd _ ?_ ?_
  · change _ / 2 ^ 24 = 7 * 2 ^ 4
    omega
  · simp only [Opcode.build, fieldsOf_c_toNat, fieldsOf_b_toNat, fieldsOf_a_toNat, hw, Instr.rdt.injEq]
    omega

/-- RDT's operands are in range when the row exists and the limb is architected (R153). -/
theorem rangeOf_rdt_iff (v p i : Nat) (e : Engine) : rangeOf (.rdt v p i) e = true ↔
    v < e.mode.params.V ∧ p < e.mode.params.P ∧ i < e.mode.params.n := by
  rw [rangeOf, Bool.and_eq_true, rowInRange_iff, limbInRange_iff, and_assoc]

theorem rangeOf_rdt_false_iff (v p i : Nat) (e : Engine) : rangeOf (.rdt v p i) e = false ↔
    e.mode.params.V ≤ v ∨ e.mode.params.P ≤ p ∨ e.mode.params.n ≤ i := by
  rw [← Bool.not_eq_true, rangeOf_rdt_iff]
  omega

/-- RDT admitted and in range answers the table word, and only answers. -/
theorem exec_rdt {v p i : Nat} {s : State} (ha : s.engine.phase = .accum ∨ s.engine.phase = .normd)
    (hr : rangeOf (.rdt v p i) s.engine = true) :
    ∃ t, exec (.rdt v p i) s = .next t ∧ ReadOnly (zext64 (tableWord s.engine.mode v p i)) s t :=
  exec_readOnly (answer_body (.rdt v p i) s.engine ((admits_iff_admitted _ _).mpr ha) hr)

/-- Settles O9: the read by `exec_rdt`, its word whole by `zext64_tableWord_toNat` and below `R` by `tableWord_lt`. -/
theorem rdtReadsOneTableWord : Obligations.RdtReadsOneTableWord := by
  refine ⟨fun v p i wd hv hp hi => decode_rdtWord hv hp hi wd, ?_, ?_, ?_⟩
  · intro v p i s ha hv hp hi
    obtain ⟨t, hexec, hread⟩ := exec_rdt ha ((rangeOf_rdt_iff v p i s.engine).mpr ⟨hv, hp, hi⟩)
    have hword := zext64_tableWord_toNat s.engine.mode v p i
    exact ⟨t, _, hexec, hread, hword, hword.trans_lt (tableWord_lt s.engine.mode v p i)⟩
  · intro v p i s ha hrange
    exact exec_outOfRange ha ((rangeOf_rdt_false_iff v p i s.engine).mpr hrange)
  · intro v p i s hp
    refine refuses_of_not_admitted ?_
    obtain hp | hp := hp <;> simp [hp, Admitted]

end Sys2Proof.Machine
end

section
/-! Proof of the carry pass's statement (42_normalize.md R100): NORM.

The carries of the claim are those of the pass (`carry_eq_carryInto`). While no sum reaches `2^64` every carry fits a
register, so `COUT` holds the last one whole and `CNZ` tells whether it is zero. -/

namespace Sys2Proof.Machine

open Sys2Proof.Claims

/-- The carries R100 states are those of the model's pass. -/
theorem carry_eq_carryInto (s : State) (i : Nat) : carry s i = carryInto s.engine i := by
  induction i with
  | zero => rfl
  | succ i ih => rw [carry, ih, carryInto]

/-- While no sum overflows a register holds the last carry whole. -/
theorem carryOut_toNat {e : Engine} (h : ∀ i < e.mode.params.n, (e.limb i).toNat + carryInto e i < wordLimit) :
    (BitVec.ofNat 64 (carryInto e e.mode.params.n)).toNat = carryInto e e.mode.params.n :=
  Nat.mod_eq_of_lt (carryInto_lt_word e _ h)

/-- `CNZ` is 1 exactly when `COUT` is not 0 (R19). -/
theorem cnz_eq_one_iff (e : Engine) : e.cnz = 1 ↔ e.cout.toNat ≠ 0 := by
  have hzero : e.cout.toNat = 0 ↔ e.cout = 0 := (BitVec.toNat_eq (y := 0)).symm
  rw [ne_eq, hzero, Engine.cnz]
  split
  case isTrue hcout => simp [hcout]
  case isFalse hcout => exact iff_of_true rfl hcout

/-- NORM in ACCUM with a sum at `2^64`: the overflow fault. -/
theorem answer_norm_overflow {e : Engine} (ha : e.phase = .accum)
    (h : ∃ i < e.mode.params.n, wordLimit ≤ (e.limb i).toNat + carryInto e i) :
    answer .norm e = raiseFault .eOvf e := by
  rw [answer_body .norm e ((admits_iff_admitted _ _).mpr ha) rfl]
  exact normalizeLimbs_overflow e h

/-- Settles O10: the completed NORM by `answer_norm`, its limbs by `reduced_limb` and `COUT` by `carryOut_toNat`; the
fault by `answer_norm_overflow`. -/
theorem normMakesOneCarryPass : Obligations.NormMakesOneCarryPass := by
  refine ⟨fun wd => decode_of_row .norm _ wd _ rfl rfl, ?_, ?_, fun s ha => refuses_of_not_admitted ha⟩
  · intro s ha hsum
    simp only [carry_eq_carryInto] at hsum ⊢
    have hcout := carryOut_toNat hsum
    refine ⟨_, exec_next .norm s, ?_⟩
    rw [answer_norm s.engine ha hsum]
    refine ⟨⟨rfl, rfl⟩, fun i hi => reduced_limb s.engine i hi, fun i hn hi => ?_, hcout, rfl,
      (cnz_eq_one_iff _).trans (not_congr (Eq.congr_left hcout)), rfl, rfl⟩
    exact setLanes_upper s.engine _ i (by rwa [length_reducedLanes]) hi
  · intro s ha hover
    simp only [carry_eq_carryInto] at hover
    exact exec_faulted (answer_norm_overflow ha hover)

end Sys2Proof.Machine
end

section
/-! Proofs of the digit and limb access statements (43_digits_and_limbs.md R110 to R112): UNPK, RDL and WRL.

The three command words carry one operand in the low byte, so one lemma decodes them (`decode_byteOperandWord`). A digit
is cut from its limb in base `b`; where `b = 256` the cut is a byte slice of the register (`zext64_byteDigit`). What
does not complete is an index out of range (`exec_outOfRange`) or a command not admitted (`refuses_of_not_admitted`). -/

namespace Sys2Proof

/-- The match of a command is its `OP` field above zeros (R62). -/
theorem row_pat_toNat (o : Opcode) : o.row.pat.toNat = o.op.toNat * 2 ^ 28 := by cases o <;> rfl

/-- A command whose one operand is the low byte decodes from its match with that byte put in (R61, R62). -/
theorem decode_byteOperandWord (o : Opcode) (hlow : o.low = 8) {a : Nat} (ha : a < 256) (wd : Word) {i : Instr}
    (hbuild : ∀ w, (fieldsOf w).a.toNat = a → o.build w wd = i) :
    decode (o.row.pat ||| BitVec.ofNat 32 a) wd = .ok i := by
  have hpat := row_pat_toNat o
  have hword := word_one o.row.pat a (by omega) ha
  refine decode_of_row o _ wd i ?_ (hbuild _ ?_)
  · rw [hlow, hword]
    omega
  · rw [fieldsOf_a_toNat, hword]
    omega

end Sys2Proof

namespace Sys2Proof.Machine

open Sys2Proof.Claims

/-! ### UNPK (R110) -/

/-- A digit in base 256 is a byte slice of the register. -/
theorem zext64_byteDigit (w : Word) (e : Nat) :
    zext64 (w.toNat / 256 ^ e % 256) = (w.extractLsb' (8 * e) 8).setWidth 64 := by
  refine BitVec.eq_of_toNat_eq ?_
  rw [zext64, BitVec.toNat_ofNat, BitVec.toNat_setWidth, BitVec.extractLsb'_toNat, Nat.shiftRight_eq_div_pow, pow_mul]
  norm_num

/-- In the decode modes a limb holds four digits in base 256. -/
theorem digitValue_decode {e : Engine} (hm : e.mode = .dec32 ∨ e.mode = .dec64) (j : Nat) : digitValue e j =
    (e.limb (e.mode.params.n - 1 - j / 4)).toNat / 256 ^ (3 - j % 4) % 256 := by
  obtain hm | hm := hm <;> simp only [digitValue, digitLimb, digitExponent, Engine.params, hm, Mode.params]

/-- A limb below `R = b^k` is the sum of its `k` digits. -/
theorem limb_eq_sum_digits (m : Mode) {l : Nat} (hl : l < m.params.R) :
    l = ∑ e ∈ Finset.range m.params.k, l / m.params.b ^ e % m.params.b * m.params.b ^ e :=
  ((radix_of_digits m.params.b m.params.k l).trans (Nat.mod_eq_of_lt hl)).symm

/-- Settles O11: the read by `answer_unpk`, its digit whole by `zext64_digitValue_toNat` and a byte by
`zext64_byteDigit`; the digits of a limb by `limb_eq_sum_digits`. -/
theorem unpkReadsOneDigit : Obligations.UnpkReadsOneDigit := by
  refine ⟨fun j wd hj => decode_byteOperandWord .unpk rfl hj wd fun _ => congrArg Instr.unpk, ?_, ?_,
    fun j s hp => refuses_of_not_admitted hp, fun m l hl => limb_eq_sum_digits m hl⟩
  · intro j s hp hj
    obtain ⟨t, hexec, hread⟩ := exec_readOnly (answer_unpk s.engine j hp hj)
    refine ⟨t, _, hexec, hread, zext64_digitValue_toNat s.engine j, fun hm => ?_⟩
    rw [digitValue_decode hm, zext64_byteDigit]
  · intro j s hp hrange
    exact exec_outOfRange hp ((digitInRange_false_iff j s.engine).mpr hrange)

/-! ### RDL (R111) -/

/-- RDL admitted and in range answers the limb, and only answers. -/
theorem answer_rdl {e : Engine} {i : Nat} (hp : e.phase = .accum ∨ e.phase = .normd) (hi : i < e.mode.params.n) :
    answer (.rdl i) e = respondOk (e.limb i) e :=
  answer_body (.rdl i) e ((admits_iff_admitted _ _).mpr hp) ((limbInRange_iff _ _).mpr hi)

/-- Settles O12: the read by `answer_rdl`. -/
theorem rdlReadsOneLimb : Obligations.RdlReadsOneLimb := by
  refine ⟨fun i wd hi => decode_byteOperandWord .rdl rfl hi wd fun _ => congrArg Instr.rdl, ?_, ?_, ?_⟩
  · intro i s hp hi
    exact exec_readOnly (answer_rdl hp hi)
  · intro i s hp hrange
    exact exec_outOfRange hp ((limbInRange_false_iff i s.engine).mpr hrange)
  · intro i s hp
    refine refuses_of_not_admitted ?_
    obtain hp | hp := hp <;> simp [hp, Admitted]

/-! ### WRL (R112) -/

/-- WRL in ACCUM, in range, replaces the limb: no sum is formed, so there is nothing to overflow. -/
theorem answer_wrl {e : Engine} {i : Nat} (data : Word) (hp : e.phase = .accum) (hi : i < e.mode.params.n) :
    answer (.wrl i data) e = respondOk 0 (e.setLimb i data) :=
  answer_body (.wrl i data) e ((admits_iff_admitted _ _).mpr hp) ((limbInRange_iff _ _).mpr hi)

/-- Settles O13: the write by `answer_wrl`, the register file after it by `limb_setLimb`. -/
theorem wrlReplacesOneLimb : Obligations.WrlReplacesOneLimb := by
  refine ⟨fun i wd hi => decode_byteOperandWord .wrl rfl hi wd fun _ => congrArg (Instr.wrl · wd), ?_, ?_,
    fun i data s hp => refuses_of_not_admitted hp⟩
  · intro i data s hp hi
    have hmax : i < NMAX := hi.trans_le (limb_count_le s.engine.mode)
    refine ⟨_, exec_next (.wrl i data) s, ?_⟩
    rw [answer_wrl data hp hi]
    refine ⟨⟨rfl, rfl⟩, ?_, fun j hj hne => ?_, rfl, rfl, rfl, rfl⟩
    · exact (limb_setLimb s.engine i data i hmax).trans (if_pos rfl)
    · exact (limb_setLimb s.engine i data j hj).trans (if_neg hne)
  · intro i data s hp hrange
    exact exec_outOfRange hp ((limbInRange_false_iff i s.engine).mpr hrange)

end Sys2Proof.Machine
end

section
/-! Proofs of the host procedures' statements (44_host_procedures.md R121, R122): the alphabet and its inverse.

The alphabet is six runs of consecutive bytes, and `charDigit` answers by those same six runs, so one lemma about a run
gives the inverse on each of them; off the runs the answer is the sentinel. -/

namespace Sys2Proof.Machine

/-- The alphabet's character of a byte's digit is the byte itself, on a run `lo … hi` of bytes whose characters stand at
`first` and after. -/
theorem digitChar_of_mem_run {lo hi first : Nat} {c : Byte}
    (run : ∀ k ≤ hi - lo, digitChar (k + first) = BitVec.ofNat 8 (lo + k)) (hc : lo ≤ c.toNat ∧ c.toNat ≤ hi) :
    digitChar (c.toNat - lo + first) = c := by
  obtain ⟨hlo, hhi⟩ := hc
  rw [run _ (Nat.sub_le_sub_right hhi lo), Nat.add_sub_cancel' hlo, BitVec.ofNat_toNat, BitVec.setWidth_eq]

/-- A digit's character decodes to the digit (R122 on the 58 alphabet bytes). -/
theorem charDigit_digitChar : ∀ d < 58, charDigit (digitChar d) = d := by decide

/-- A byte is invalid, or decodes to the digit whose character it is (R122's six ranges, one run each). -/
theorem charDigit_invalid_or_inverse (c : Byte) :
    charDigit c = invalidDigit ∨ (charDigit c < 58 ∧ digitChar (charDigit c) = c) := by
  unfold charDigit
  dsimp only
  split_ifs with digits AtoH JtoN PtoZ atok mtoz
  · exact .inr ⟨by omega, digitChar_of_mem_run (first := 0) (by decide) digits⟩
  · exact .inr ⟨by omega, digitChar_of_mem_run (by decide) AtoH⟩
  · exact .inr ⟨by omega, digitChar_of_mem_run (by decide) JtoN⟩
  · exact .inr ⟨by omega, digitChar_of_mem_run (by decide) PtoZ⟩
  · exact .inr ⟨by omega, digitChar_of_mem_run (by decide) atok⟩
  · exact .inr ⟨by omega, digitChar_of_mem_run (by decide) mtoz⟩
  · exact .inl rfl

/-- Every alphabet character is ASCII. -/
theorem digitChar_toNat_lt : ∀ d < 58, (digitChar d).toNat < 0x80 := by decide

/-- A byte beyond ASCII is invalid: it is no digit's character. -/
theorem charDigit_of_not_ascii {c : Byte} (hc : 0x80 ≤ c.toNat) : charDigit c = invalidDigit := by
  refine (charDigit_invalid_or_inverse c).resolve_right fun ⟨hlt, hinv⟩ => ?_
  have hascii := digitChar_toNat_lt _ hlt
  rw [hinv] at hascii
  exact absurd hascii (Nat.not_lt.mpr hc)

/-- 198 of the 256 byte values are invalid (R122). -/
theorem invalid_byte_count :
    ((List.range 256).filter fun c => charDigit (BitVec.ofNat 8 c) == 255).length = 198 := by
  decide +kernel

/-- Settles O41: one inverse by the 58 digits, the other by the six runs of `charDigit_invalid_or_inverse`, and the bytes
beyond ASCII from it. -/
theorem alphabetTablesAreInverse : Obligations.AlphabetTablesAreInverse :=
  ⟨by decide, rfl, charDigit_digitChar, charDigit_invalid_or_inverse, invalid_byte_count, by decide,
    fun _ => charDigit_of_not_ascii⟩

end Sys2Proof.Machine
end

section
/-! Proofs of the faults' statements (60_exceptions.md R151, R155 to R158, R162): what each check that fails makes of a
command or a word, the exits from FAULT, and several engines that share nothing.

No row of the opcode map accepts an ill-formed word, so the engine rejects it. What a command does is read off the four
outcomes of the front end (`answer_cases`), the last of them split by whether a limb sum reaches `2^64`; the status of a
response tells which outcome it was. The exits from FAULT are the requests R155 does not ignore, and reset. -/

namespace Sys2Proof

open Sys2Proof.Claims

/-- The nine commands have the `OP` values 1 to 9 (R62). -/
theorem Opcode.op_toNat_bounds (o : Opcode) : 1 ≤ o.op.toNat ∧ o.op.toNat ≤ 9 := by cases o <;> decide

/-- A word with a reserved `OP` is no command's word (R65). -/
theorem decode_error_of_reservedOp {w : CmdWord}
    (hop : (w.extractLsb' 28 4).toNat = 0 ∨ 10 ≤ (w.extractLsb' 28 4).toNat) (wd : Word) :
    ∃ err, decode w wd = .error err := by
  refine (decode_error_iff w wd).mpr fun o => Bool.eq_false_iff.mpr fun hacc => ?_
  obtain ⟨hlo, hhi⟩ := o.op_toNat_bounds
  rw [op_of_accepts hacc] at hop
  omega

/-- An ill-formed word, as R65 lists them, is no command's word. -/
theorem decode_error_of_illFormed {w : CmdWord} (h : IllFormed w) (wd : Word) : ∃ err, decode w wd = .error err := by
  have mustBeZero : ∀ o : Opcode, (w.extractLsb' 28 4).toNat = o.op.toNat →
      w.extractLsb' o.low (28 - o.low) ≠ 0 → ∃ err, decode w wd = .error err :=
    fun o hop hz => decode_error_of_mustBeZero o (BitVec.eq_of_toNat_eq hop) hz wd
  obtain hop | hop | ⟨hop, hz⟩ | ⟨hop, hz⟩ | ⟨hop | hop | hop, hz⟩ | ⟨hop | hop | hop, hz⟩ | ⟨hop, hz⟩ := h
  · exact decode_error_of_reservedOp (.inl hop) wd
  · exact decode_error_of_reservedOp (.inr hop) wd
  · exact mustBeZero .init hop hz
  · exact mustBeZero .acc hop hz
  · exact mustBeZero .norm hop hz
  · exact mustBeZero .rds hop hz
  · exact mustBeZero .rdc hop hz
  · exact mustBeZero .unpk hop hz
  · exact mustBeZero .rdl hop hz
  · exact mustBeZero .wrl hop hz
  · exact mustBeZero .rdt hop hz

end Sys2Proof

namespace Sys2Proof.Machine

open Sys2Proof.Claims

/-! ### Ill-formed words (R151, R155) -/

/-- Settles O21: an ill-formed word does not decode (`decode_error_of_illFormed`), and outside FAULT its rejection is
`E_OPC`. -/
theorem illFormedWordFaultsOpc : Obligations.IllFormedWordFaultsOpc := by
  intro s w wd rest hs hp hw
  simpa only [if_neg hp] using rejects_of_decode_error (decode_error_of_illFormed hw) wd rest s hs

/-- The engine rejects a word that does not decode with some `wdata`: it decodes with none. -/
theorem rejects_of_decode {w : CmdWord} {wd : Word} {err : DecodeError} (hd : decode w wd = .error err) : Rejects w :=
  rejects_of_decode_error (decode_error_of_error hd)

/-! ### Commands in FAULT (R155) -/

/-- In FAULT every command but INIT and RDS is ignored. -/
theorem exec_ignored_of_fault {i : Instr} {s : State} (hp : s.engine.phase = .fault) (hinit : ∀ m, i ≠ .init m)
    (hrds : i ≠ .rds) : ∃ t, exec i s = .next t ∧ Ignored s t := by
  refine exec_ignored (answer_fault i s.engine hp (Bool.eq_false_iff.mpr fun ha => ?_))
  obtain ⟨m, rfl⟩ | rfl := admits_outside_call (by decide) ha
  · exact hinit m rfl
  · exact hrds rfl

/-- Settles O22: a word that decodes by `exec_ignored_of_fault`, a word that does not by `rejects_of_decode`. -/
theorem faultedEngineIgnoresCommands : Obligations.FaultedEngineIgnoresCommands := by
  intro s w wd rest hs hp hinit hrds
  cases hd : decode w wd with
  | ok i =>
    rw [step_command s w wd rest i hs hd]
    exact exec_ignored_of_fault hp (fun m hi => hinit m (hi ▸ hd)) fun hi => hrds (hi ▸ hd)
  | error err => simpa only [if_pos hp] using rejects_of_decode hd wd rest s hs

/-! ### The order of the checks (R156) -/

/-- The range check of each command is R153's. -/
theorem rangeOf_iff_inRange (i : Instr) (e : Engine) : rangeOf i e = true ↔ InRange i e.mode := by
  cases i with
  | acc v p => exact rowInRange_iff v p e
  | rdt v p j => exact rangeOf_rdt_iff v p j e
  | unpk j => exact digitInRange_iff j e
  | rdl j => exact limbInRange_iff j e
  | wrl j _ => exact limbInRange_iff j e
  | init _ | norm | rds | rdc => exact iff_of_true rfl trivial

/-- A body in which a limb sum reaches `2^64` is the overflow fault (R154). -/
theorem bodyOf_of_overflows {i : Instr} {s : State} (h : Overflows i s) :
    bodyOf i s.engine = raiseFault .eOvf s.engine := by
  cases i with
  | acc v p => exact accumulateRow_overflow v p s.engine h
  | norm =>
    simp only [Overflows, carry_eq_carryInto] at h
    exact normalizeLimbs_overflow s.engine h
  | init _ | unpk _ | rdl _ | wrl _ _ | rdt _ _ _ | rds | rdc => exact h.elim

/-- A body in which no limb sum reaches `2^64` completes. -/
theorem bodyOf_status_of_not_overflows {i : Instr} {s : State} (h : ¬ Overflows i s) :
    (bodyOf i s.engine).2.status = .ok := by
  cases i with
  | acc v p =>
    simp only [Overflows, not_exists, not_and, not_le] at h
    exact congrArg (·.2.status) (accumulateRow_ok v p s.engine h)
  | norm =>
    simp only [Overflows, carry_eq_carryInto, not_exists, not_and, not_le] at h
    exact congrArg (·.2.status) (normalizeLimbs_ok s.engine h)
  | init _ | unpk _ | rdl _ | wrl _ _ | rdt _ _ _ | rds | rdc => rfl

/-- A command whose engine answer has status OK completed. -/
theorem exec_completed {i : Instr} {s : State} (h : (answer i s.engine).2.status = .ok) :
    ∃ t, exec i s = .next t ∧ ∃ d, Answered ⟨.ok, d⟩ s t := by
  refine ⟨_, exec_next i s, (answer i s.engine).2.rdata, ?_, rfl⟩
  rw [← h]

/-- The first check that fails decides: the front end's three failures, then overflow. -/
theorem exec_firstFailure (i : Instr) (s : State) : ∃ t, exec i s = .next t ∧ FirstFailure i s t := by
  simp only [FirstFailure, ← admits_iff_admitted, ← rangeOf_iff_inRange, Bool.not_eq_true]
  obtain ⟨hp, ha, h⟩ | ⟨hp, ha, h⟩ | ⟨_, ha, hr, h⟩ | ⟨ha, hr, h⟩ := answer_cases i s.engine
  · obtain ⟨t, hexec, hign⟩ := exec_ignored h
    exact ⟨t, hexec, .inl ⟨hp, ha, hign⟩⟩
  · obtain ⟨t, hexec, hf⟩ := exec_faulted h
    exact ⟨t, hexec, .inr (.inl ⟨hp, ha, hf⟩)⟩
  · obtain ⟨t, hexec, hf⟩ := exec_faulted h
    exact ⟨t, hexec, .inr (.inr (.inl ⟨ha, hr, hf⟩))⟩
  · by_cases hov : Overflows i s
    · obtain ⟨t, hexec, hf⟩ := exec_faulted (h.trans (bodyOf_of_overflows hov))
      exact ⟨t, hexec, .inr (.inr (.inr (.inl ⟨ha, hr, hov, hf⟩)))⟩
    · obtain ⟨t, hexec, hok⟩ := exec_completed (h ▸ bodyOf_status_of_not_overflows hov)
      exact ⟨t, hexec, .inr (.inr (.inr (.inr ⟨ha, hr, hov, hok⟩)))⟩

/-- Settles O23: commands by `exec_firstFailure`, ill-formed words by `rejects_of_decode`. -/
theorem firstFailingCheckDecides : Obligations.FirstFailingCheckDecides :=
  ⟨exec_firstFailure, fun s _ wd rest _ hs hd => rejects_of_decode hd wd rest s hs⟩

/-! ### Fault entry (R157) -/

/-- A response status tells its cause (R150). -/
theorem FaultCode.status_injective : Function.Injective FaultCode.status := by
  intro c c' h
  revert h
  cases c <;> cases c' <;> decide

/-- No cause has the status of a command that completed or was ignored. -/
theorem FaultCode.status_ne (c : FaultCode) : c.status ≠ .ok ∧ c.status ≠ .eFlt := by cases c <;> decide

/-- Every command completes, is ignored, or faults. -/
theorem answer_ok_or_ignored_or_faulted (i : Instr) (e : Engine) :
    (answer i e).2.status = .ok ∨ answer i e = ignoreFaulted e ∨ ∃ c, answer i e = raiseFault c e := by
  obtain ⟨_, _, h⟩ | ⟨_, _, h⟩ | ⟨_, _, _, h⟩ | ⟨_, _, h⟩ := answer_cases i e
  · exact .inr (.inl h)
  · exact .inr (.inr ⟨_, h⟩)
  · exact .inr (.inr ⟨_, h⟩)
  · obtain hok | ⟨_, hov⟩ := bodyOf_status i e
    · exact .inl (h ▸ hok)
    · exact .inr (.inr ⟨_, h.trans hov⟩)

/-- A command answered with a cause's status took that fault. -/
theorem answer_eq_raiseFault {i : Instr} {e : Engine} {c : FaultCode} (hstatus : (answer i e).2.status = c.status) :
    answer i e = raiseFault c e := by
  obtain ⟨hne_ok, hne_eFlt⟩ := c.status_ne
  obtain hok | h | ⟨c', h⟩ := answer_ok_or_ignored_or_faulted i e
  · exact absurd (hstatus.symm.trans hok) hne_ok
  · rw [h] at hstatus
    exact absurd hstatus.symm hne_eFlt
  · rw [h] at hstatus
    obtain rfl : c' = c := FaultCode.status_injective hstatus
    exact h

/-- A command answered with a cause's status has done what R157 says, and no more. -/
theorem faulted_of_exec {i : Instr} {s t : State} {r : Response} {c : FaultCode} (h : exec i s = .next t)
    (ha : Answered r s t) (hr : r.status = c.status) : Faulted c s t := by
  rw [answered_response h ha] at hr
  obtain ⟨t', h', hf⟩ := exec_faulted (answer_eq_raiseFault hr)
  obtain rfl : t = t' := Host.Outcome.next.inj (h.symm.trans h')
  exact hf

/-- An ill-formed word answered with a cause's status has done what R157 says, and no more: the cause is `E_OPC`, and
the phase was not FAULT. -/
theorem faulted_of_illFormed {s t : State} {w : CmdWord} {wd : Word} {rest : List Input} {err : DecodeError}
    {r : Response} {c : FaultCode} (hs : s.pending = .request w wd :: rest) (hd : decode w wd = .error err)
    (h : step s = .next t) (ha : Answered r (taken s rest) t) (hr : r.status = c.status) :
    Faulted c (taken s rest) t := by
  rw [answered_illFormed hs hd h ha] at hr
  obtain ⟨t', h', hout⟩ := rejects_of_decode hd wd rest s hs
  obtain rfl : t = t' := Host.Outcome.next.inj (h.symm.trans h')
  by_cases hp : s.engine.phase = .fault
  · rw [rejectWord_fault s.engine hp] at hr
    exact absurd hr.symm c.status_ne.2
  · rw [rejectWord_running s.engine hp] at hr
    obtain rfl : FaultCode.eOpc = c := FaultCode.status_injective hr
    simpa only [if_neg hp] using hout

/-- Settles O24: commands by `faulted_of_exec`; a word sent runs its command or is rejected (`faulted_of_illFormed`). -/
theorem faultChangesOnlyPhaseAndErr : Obligations.FaultChangesOnlyPhaseAndErr := by
  refine ⟨fun i s t r c => faulted_of_exec, ?_⟩
  intro s w wd rest t r c hs h ha hr
  cases hd : decode w wd with
  | ok i =>
    rw [step_command s w wd rest i hs hd] at h
    exact faulted_of_exec h ha hr
  | error err => exact faulted_of_illFormed hs hd h ha hr

/-! ### The exits from FAULT (R158) -/

/-- In FAULT a request other than INIT keeps the phase and the first cause: RDS only reads, the rest is ignored. -/
theorem step_keeps_fault {s t : State} {w : CmdWord} {wd : Word} {rest : List Input}
    (hs : s.pending = .request w wd :: rest) (hp : s.engine.phase = .fault) (hinit : ∀ m, decode w wd ≠ .ok (.init m))
    (h : step s = .next t) : t.engine.phase = .fault ∧ t.engine.err = s.engine.err ∧
      (decode w wd ≠ .ok .rds → Ignored (taken s rest) t) := by
  by_cases hrds : decode w wd = .ok .rds
  · rw [step_command s w wd rest .rds hs hrds] at h
    have ht : t.engine = s.engine := by rw [(exec_next_inv h).1, answer_rds, respondOk_engine]
    rw [ht]
    exact ⟨hp, rfl, absurd hrds⟩
  · obtain ⟨t', h', hign⟩ := faultedEngineIgnoresCommands s w wd rest hs hp hinit hrds
    obtain rfl : t = t' := Host.Outcome.next.inj (h.symm.trans h')
    have ⟨_, _, _, _, hphase, herr⟩ := hign
    exact ⟨hphase.trans hp, herr, fun _ => hign⟩

/-- Settles O25: with nothing issued the engine stays, reset and INIT leave FAULT, and every other request keeps it
(`step_keeps_fault`). -/
theorem onlyInitOrResetLeavesFault : Obligations.OnlyInitOrResetLeavesFault := by
  intro s t hp h
  cases hs : s.pending with
  | nil =>
    rw [step_idle s hs] at h
    cases h
    exact .inl ⟨hp, rfl, nofun⟩
  | cons x rest =>
    cases x with
    | reset =>
      rw [step_reset s rest hs] at h
      cases h
      exact .inr (.inl ⟨rest, rfl, rfl, rfl⟩)
    | request w wd =>
      by_cases hinit : ∃ m, decode w wd = .ok (.init m)
      · obtain ⟨m, hd⟩ := hinit
        rw [step_command s w wd rest _ hs hd] at h
        refine .inr (.inr ⟨w, wd, rest, m, rfl, hd, ?_⟩)
        rw [exec_init_engine h]
        exact ⟨rfl, rfl, rfl, rfl, fun i _ => beginCall_limb m _ i⟩
      · obtain ⟨hphase, herr, hign⟩ := step_keeps_fault hs hp (not_exists.mp hinit) h
        refine .inl ⟨hphase, herr, ?_⟩
        rintro _ _ _ ⟨⟩
        exact hign

/-! ### Several engines (R162) -/

/-- Every step goes on (R178). -/
theorem exists_step_next (s : State) : ∃ t, step s = .next t := by
  obtain ⟨_, h⟩ | ⟨_, _, h⟩ | ⟨_, _, _, _, _, _, h⟩ | ⟨_, _, _, _, _, _, h⟩ := step_cases s <;> exact ⟨_, h⟩

/-- Where the system has no engine `k` nothing happens. -/
theorem stepAt_of_none {sys : System} {k : Nat} (hk : sys.instances[k]? = none) : sys.stepAt k = .next sys := by
  simp only [System.stepAt, hk]

/-- The engine that acts is replaced by its own next state, and no other is written. -/
theorem stepAt_of_some {sys : System} {k : Nat} {s t : State} (hk : sys.instances[k]? = some s)
    (ht : step s = .next t) : sys.stepAt k = .next ⟨sys.instances.set k t⟩ := by
  simp only [System.stepAt, hk, ht]

/-- Settles O40: a step writes one place of the list (`stepAt_of_some`), with what that engine's own step gives. -/
theorem instancesDoNotInteract : Obligations.InstancesDoNotInteract := by
  refine ⟨?_, ?_, ?_⟩
  · intro sys k
    cases hk : sys.instances[k]? with
    | none => exact ⟨sys, stepAt_of_none hk, rfl, fun _ _ => rfl⟩
    | some s =>
      obtain ⟨t, ht⟩ := exists_step_next s
      exact ⟨_, stepAt_of_some hk ht, List.length_set, fun j hj => List.getElem?_set_ne hj.symm⟩
  · intro a b a' b' k hab ha hb
    cases hk : a.instances[k]? with
    | none =>
      rw [stepAt_of_none hk] at ha
      rw [stepAt_of_none (hab ▸ hk)] at hb
      cases ha
      cases hb
      exact hab
    | some s =>
      obtain ⟨t, ht⟩ := exists_step_next s
      rw [stepAt_of_some hk ht] at ha
      rw [stepAt_of_some (hab ▸ hk) ht] at hb
      cases ha
      cases hb
      rw [List.getElem?_set_self', List.getElem?_set_self', hab]
  · intro sys k s rest hk hs
    refine ⟨_, ⟨Engine.reset, rest, s.responses⟩, stepAt_of_some hk (step_reset s rest hs), ?_, rfl⟩
    rw [List.getElem?_set_self', hk]
    rfl

end Sys2Proof.Machine
end

section
/-! Proofs of the encoding's round trip (30_encoding.md sections 1 to 3, 5, 7): decode after encode, encode after
decode, the example words, and the count of well-formed words.

`decode_ok_iff` names the row that decides a word, so both directions are about that row alone: the command it builds
from its own fields, and the number the fields make of a word it accepts. The nine rows accept disjoint runs of words,
one word for each value of the operand bits, so their number is a sum. -/

namespace Sys2Proof

/-! ### Decode after encode -/

/-- The word of every command is accepted by that command's row (R62). -/
theorem accepts_encode (i : Instr) : i.opcode.row.accepts (encode i).1 = true := by
  cases i with
  | init m => exact Laws.EncodesInRow.init m
  | acc v p => exact Laws.EncodesInRow.acc v p
  | norm => exact Laws.EncodesInRow.norm
  | unpk j => exact Laws.EncodesInRow.unpk j
  | rdl i => exact Laws.EncodesInRow.rdl i
  | wrl i data => exact Laws.EncodesInRow.wrl i data
  | rdt v p i => exact Laws.EncodesInRow.rdt v p i
  | rds => exact Laws.EncodesInRow.rds
  | rdc => exact Laws.EncodesInRow.rdc

theorem fieldsOf_encode (i : Instr) : fieldsOf (encode i).1 = i.fields := fieldsOf_word i.fields

theorem encode_wdata (i : Instr) : (encode i).2 = i.wdata := rfl

theorem fitsField_iff (x : Nat) : fitsField x = true ↔ x < 256 := decide_eq_true_iff

/-- An operand that fits its field is read back whole (R64). -/
theorem toNat_ofNat_of_fitsField {x : Nat} (h : fitsField x = true) : (BitVec.ofNat 8 x).toNat = x :=
  Nat.mod_eq_of_lt ((fitsField_iff x).mp h)

/-- A row builds from the word and the data of its well-formed command that command (R64, R66). -/
theorem build_encode {i : Instr} (h : i.wellFormed = true) : i.opcode.build (encode i).1 (encode i).2 = i := by
  have hfields := fieldsOf_encode i
  cases i with
  | init m => cases m <;> rfl
  | norm | rds | rdc => rfl
  | acc v p =>
    obtain ⟨hv, hp⟩ := Bool.and_eq_true_iff.mp h
    simp only [Opcode.build, Instr.opcode, hfields, Instr.fields, toNat_ofNat_of_fitsField hv,
      toNat_ofNat_of_fitsField hp]
  | rdt v p j =>
    obtain ⟨hvp, hj⟩ := Bool.and_eq_true_iff.mp h
    obtain ⟨hv, hp⟩ := Bool.and_eq_true_iff.mp hvp
    simp only [Opcode.build, Instr.opcode, hfields, Instr.fields, toNat_ofNat_of_fitsField hv,
      toNat_ofNat_of_fitsField hp, toNat_ofNat_of_fitsField hj]
  | unpk j | rdl j | wrl j data =>
    simp only [Opcode.build, Instr.opcode, hfields, Instr.fields, toNat_ofNat_of_fitsField h, encode_wdata, Instr.wdata]

/-- Settles O15: the command's own row accepts its word (`accepts_encode`) and builds the command (`build_encode`). -/
theorem decodeOfEncodeIsIdentity : Obligations.DecodeOfEncodeIsIdentity := fun i h =>
  (decode_ok_iff _ _ _).mpr ⟨i.opcode, accepts_encode i, (build_encode h).symm⟩

/-! ### Encode after decode -/

@[simp] theorem opcode_build (o : Opcode) (w : CmdWord) (wd : Word) : (o.build w wd).opcode = o := by cases o <;> rfl

theorem fitsField_toNat (b : BitVec 8) : fitsField b.toNat = true := (fitsField_iff _).mpr b.isLt

/-- Operands taken from fields fit them. -/
theorem wellFormed_build (o : Opcode) (w : CmdWord) (wd : Word) : (o.build w wd).wellFormed = true := by
  cases o with
  | init | norm | rds | rdc => rfl
  | acc | unpk | rdl | wrl | rdt => simp only [Opcode.build, Instr.wellFormed, fitsField_toNat, Bool.and_self]

/-- A row accepts no word but that of the command it builds from it: every bit outside the operands is the row's. -/
theorem encode_build {o : Opcode} {w : CmdWord} (h : o.row.accepts w = true) (wd : Word) :
    (encode (o.build w wd)).1 = w := by
  have hw := w.isLt
  rw [accepts_iff] at h
  refine BitVec.eq_of_toNat_eq ?_
  rw [encode_toNat, opcode_build]
  cases o with
  | init =>
    have hmode : (w.extractLsb' 0 2).toNat = w.toNat % 2 ^ 2 := by
      rw [BitVec.extractLsb'_toNat, Nat.shiftRight_zero]
    simp [Opcode.build, Instr.fields, hmode, Opcode.low, Opcode.op] at h ⊢
    omega
  | acc | norm | unpk | rdl | wrl | rdt | rds | rdc =>
    simp [Opcode.build, Instr.fields, Opcode.low, Opcode.op] at h ⊢
    omega

/-- Only WRL sends data (R69). -/
theorem wdata_of_ne_wrl {i : Instr} (h : i.opcode ≠ .wrl) : i.wdata = 0 := by
  cases i with
  | wrl i data => exact absurd rfl h
  | init _ | acc _ _ | norm | unpk _ | rdl _ | rdt _ _ _ | rds | rdc => rfl

/-- Settles O16: the word decodes by the row that accepts it, whose command is well formed (`wellFormed_build`) and has
that word (`encode_build`). -/
theorem encodeOfDecodeIsIdentity : Obligations.EncodeOfDecodeIsIdentity := by
  intro w wd i h
  obtain ⟨o, hrow, rfl⟩ := (decode_ok_iff w wd i).mp h
  refine ⟨wellFormed_build o w wd, encode_build hrow wd, fun ho => ?_, wdata_of_ne_wrl⟩
  obtain rfl : o = .wrl := (opcode_build o w wd).symm.trans ho
  rfl

/-- Settles O17: eleven fixed words, evaluated. -/
theorem exampleWordsDecode : Obligations.ExampleWordsDecode := by
  unfold Obligations.ExampleWordsDecode
  decide

/-! ### The count of well-formed words (R63) -/

/-- The nine commands. -/
def allOpcodes : Finset Opcode := {.init, .acc, .norm, .unpk, .rdl, .wrl, .rdt, .rds, .rdc}

theorem mem_allOpcodes (o : Opcode) : o ∈ allOpcodes := by cases o <;> decide

/-- The words of one command: its match with every value in its operand bits. -/
def wordsOf (o : Opcode) : Finset CmdWord :=
  (Finset.range (2 ^ o.low)).image fun k => BitVec.ofNat 32 (o.op.toNat * 2 ^ 28 + k)

/-- A command's match with an operand value in it is a 32-bit number. -/
theorem match_add_lt (o : Opcode) {k : Nat} (hk : k < 2 ^ o.low) : o.op.toNat * 2 ^ 28 + k < 2 ^ 32 := by
  have hlow : 2 ^ o.low ≤ 2 ^ 28 := Nat.pow_le_pow_right Nat.two_pos o.low_le
  obtain ⟨-, hhi⟩ := o.op_toNat_bounds
  omega

/-- A row accepts exactly the words of its command. -/
theorem mem_wordsOf_iff (o : Opcode) (w : CmdWord) : w ∈ wordsOf o ↔ o.row.accepts w = true := by
  have hpos := Nat.two_pow_pos o.low
  have hmatch : o.op.toNat * 2 ^ 28 = o.op.toNat * 2 ^ (28 - o.low) * 2 ^ o.low := by
    rw [mul_assoc, ← pow_add, Nat.sub_add_cancel o.low_le]
  simp only [wordsOf, Finset.mem_image, Finset.mem_range, accepts_iff]
  constructor
  · rintro ⟨k, hk, rfl⟩
    rw [BitVec.toNat_ofNat, Nat.mod_eq_of_lt (match_add_lt o hk), hmatch, Nat.mul_comm, Nat.mul_add_div hpos,
      Nat.div_eq_of_lt hk, Nat.add_zero]
  · intro h
    refine ⟨w.toNat % 2 ^ o.low, Nat.mod_lt _ hpos, ?_⟩
    rw [hmatch, ← h, Nat.div_add_mod', BitVec.ofNat_toNat, BitVec.setWidth_eq]

/-- A command has one word for each value of its operand bits. -/
theorem card_wordsOf (o : Opcode) : (wordsOf o).card = 2 ^ o.low := by
  rw [wordsOf, Finset.card_image_of_injOn, Finset.card_range]
  intro k hk k' hk' heq
  have heq := congrArg BitVec.toNat heq
  simp only [BitVec.toNat_ofNat] at heq
  rw [Nat.mod_eq_of_lt (match_add_lt o (Finset.mem_range.mp hk)),
    Nat.mod_eq_of_lt (match_add_lt o (Finset.mem_range.mp hk'))] at heq
  exact Nat.add_left_cancel heq

/-- No word is two commands' word: `OP` tells them apart. -/
theorem wordsOf_disjoint {o o' : Opcode} (h : o ≠ o') : Disjoint (wordsOf o) (wordsOf o') := by
  refine Finset.disjoint_left.mpr fun w hw hw' => h (Opcode.op_injective ?_)
  rw [mem_wordsOf_iff] at hw hw'
  exact (op_of_accepts hw).symm.trans (op_of_accepts hw')

/-- The well-formed words are the words of the nine commands. -/
theorem mem_biUnion_wordsOf_iff (w : CmdWord) :
    w ∈ allOpcodes.biUnion wordsOf ↔ ∃ i, decode w 0 = .ok i := by
  simp only [Finset.mem_biUnion, mem_wordsOf_iff, decode_ok_iff]
  exact ⟨fun ⟨o, _, h⟩ => ⟨_, o, h, rfl⟩, fun ⟨_, o, h, _⟩ => ⟨o, mem_allOpcodes o, h⟩⟩

/-- Settles O18: a disjoint union of nine runs of words, `2^low` long each. -/
theorem wellFormedWordCount : Obligations.WellFormedWordCount := by
  unfold Obligations.WellFormedWordCount
  rw [Nat.subtype_card _ mem_biUnion_wordsOf_iff, Finset.card_biUnion fun _ _ _ _ => wordsOf_disjoint]
  simp only [card_wordsOf]
  decide

end Sys2Proof
end

section
/-! Proofs of the step's statements (30_encoding.md section 1, 70_reset_and_hazards.md R170, R178): a step runs the
decoded command, reset is one step, and every request gets exactly one response. All are read off `step_cases` and the
lemmas about its four branches. -/

namespace Sys2Proof.Machine

open Sys2Proof.Claims

/-- Settles O4: the step that takes a reset event, `step_reset`. -/
theorem resetEventIsOneStep : Obligations.ResetEventIsOneStep := by
  intro s rest hs
  exact ⟨_, step_reset s rest hs, rfl, rfl, rfl, rfl, rfl, rfl⟩

/-- A table-numbered instruction is a command when its request decodes to it. -/
theorem decodeTableWord_eq_some_iff (nbits w : Nat) (i : Instr) :
    decodeTableWord nbits w = some i ↔ decode (tableRequest nbits w).1 (tableRequest nbits w).2 = .ok i := by
  unfold decodeTableWord
  split <;> simp [*]

/-- Settles O19: the branches of a step are `step_command` and `step_illFormed`; `withFetchWord` puts the request
first. -/
theorem stepRunsTheDecodedCommand : Obligations.StepRunsTheDecodedCommand := by
  refine ⟨step_command, fun s w wd rest err hs hd => ?_, fun s w i _ hi => ?_⟩
  · rw [step_illFormed s w wd rest err hs hd, transact_eq]
  · have hd := (decodeTableWord_eq_some_iff 32 w i).mp hi
    exact step_command (s.withFetchWord 32 w) _ _ s.pending i rfl hd

/-- Settles O20: each branch of `step_cases` goes on, and the two that take a request append one response. -/
theorem everyRequestIsAnsweredOnce : Obligations.EveryRequestIsAnsweredOnce := by
  refine ⟨fun s => ?_, fun i s => ⟨_, _, exec_next i s, rfl, rfl⟩⟩
  obtain ⟨hs, h⟩ | ⟨rest, hs, h⟩ | ⟨w, wd, rest, _, hs, _, h⟩ | ⟨w, wd, rest, _, hs, _, h⟩ := step_cases s
  · exact ⟨s, h, .inl ⟨hs, rfl⟩⟩
  · exact ⟨_, h, .inr (.inl ⟨rest, hs, rfl, rfl⟩)⟩
  · exact ⟨_, h, .inr (.inr ⟨w, wd, rest, _, hs, rfl, rfl⟩)⟩
  · exact ⟨_, h, .inr (.inr ⟨w, wd, rest, _, hs, rfl, rfl⟩)⟩

end Sys2Proof.Machine
end

section
/-! Proofs of the state's statements over all commands (10_state.md sections 1, 2, 4 to 6): who writes each register,
and the invariant.

A command that does not complete was ignored or faulted, and then wrote at most `PHASE` and `ERR`; one that completes
leaves the engine `effectOf` gives. So both statements are about the four commands whose effect is a write: INIT, ACC,
NORM and WRL. -/

namespace Sys2Proof.Machine

open Sys2Proof.Claims

/-! ### Completed or not -/

/-- A command that completes was admitted, in range, and has done its body. -/
theorem answer_eq_bodyOf_of_ok {i : Instr} {e : Engine} (hok : (answer i e).2.status = .ok) :
    admits i.opcode e.phase = true ∧ rangeOf i e = true ∧ answer i e = bodyOf i e := by
  obtain ⟨_, _, h⟩ | ⟨_, _, h⟩ | ⟨_, _, _, h⟩ | h := answer_cases i e
  · exact absurd (h ▸ hok) (by simp)
  · exact absurd (h ▸ hok) (raiseFault_status_ne_ok _ e)
  · exact absurd (h ▸ hok) (raiseFault_status_ne_ok _ e)
  · exact h

/-- A command that does not complete was ignored or faulted. -/
theorem ignored_or_faulted_of_not_ok {i : Instr} {e : Engine} (hne : (answer i e).2.status ≠ .ok) :
    answer i e = ignoreFaulted e ∨ ∃ c, answer i e = raiseFault c e :=
  (answer_ok_or_ignored_or_faulted i e).resolve_left hne

/-- What a command that does not complete leaves: at most `PHASE` and `ERR` written (R155, R157). -/
theorem answer_kept_of_not_ok {i : Instr} {e : Engine} (hne : (answer i e).2.status ≠ .ok) :
    (answer i e).1.mode = e.mode ∧ (answer i e).1.cout = e.cout ∧ ∀ j, (answer i e).1.limb j = e.limb j := by
  obtain h | ⟨c, h⟩ := ignored_or_faulted_of_not_ok hne <;> rw [h]
  · exact ⟨rfl, rfl, fun _ => rfl⟩
  · exact ⟨rfl, rfl, fun _ => rfl⟩

/-- A command answered `E_FLT` was ignored, and wrote nothing. -/
theorem ignored_of_exec {i : Instr} {s t : State} (h : exec i s = .next t)
    (hflt : (answer i s.engine).2.status = .eFlt) : Ignored s t := by
  obtain ⟨t', h', hign⟩ := exec_ignored (answer_eq_ignoreFaulted i s.engine hflt)
  obtain rfl : t = t' := Host.Outcome.next.inj (h.symm.trans h')
  exact hign

/-! ### What a completing command leaves -/

/-- The engine a completing command leaves: four commands write it, the others only read. -/
def effectOf : Instr → Engine → Engine
  | .init m, e => beginCall m e
  | .acc v p, e => e.setLanes (laneSums v p e)
  | .norm, e => { e.setLanes (reducedLanes e) with
      cout := BitVec.ofNat 64 (carryInto e e.mode.params.n), phase := .normd }
  | .wrl i data, e => e.setLimb i data
  | .unpk _, e | .rdl _, e | .rdt _ _ _, e | .rds, e | .rdc, e => e

/-- A completing command has had its effect: ACC and NORM overflowed no sum. -/
theorem answer_engine_of_ok {i : Instr} {e : Engine} (hok : (answer i e).2.status = .ok) :
    (answer i e).1 = effectOf i e := by
  obtain ⟨hadm, -⟩ := answer_of_ok i e hok
  cases i with
  | acc v p =>
    obtain ⟨hv, hp, hsum⟩ := acc_ok_inv e v p hadm hok
    rw [answer_acc e v p hadm hv hp hsum]
    rfl
  | norm =>
    rw [answer_norm e hadm (norm_ok_inv e hadm hok)]
    rfl
  | init _ | unpk _ | rdl _ | wrl _ _ | rdt _ _ _ | rds | rdc =>
    rw [(answer_eq_bodyOf_of_ok hok).2.2]
    rfl

/-- Of the commands that complete only INIT writes `MODE` and `ERR`. -/
theorem effectOf_mode_err {i : Instr} (hi : i.opcode ≠ .init) (e : Engine) :
    (effectOf i e).mode = e.mode ∧ (effectOf i e).err = e.err := by
  cases i with
  | init _ => exact absurd rfl hi
  | acc _ _ | norm | unpk _ | rdl _ | wrl _ _ | rdt _ _ _ | rds | rdc => exact ⟨rfl, rfl⟩

/-- Of the commands that complete only INIT and NORM write `COUT` and `PHASE`. -/
theorem effectOf_cout_phase {i : Instr} (hi : i.opcode ≠ .init) (hn : i.opcode ≠ .norm) (e : Engine) :
    (effectOf i e).cout = e.cout ∧ (effectOf i e).phase = e.phase := by
  cases i with
  | init _ => exact absurd rfl hi
  | norm => exact absurd rfl hn
  | acc _ _ | unpk _ | rdl _ | wrl _ _ | rdt _ _ _ | rds | rdc => exact ⟨rfl, rfl⟩

/-- Every command but the four that write limbs leaves the whole engine. -/
theorem effectOf_eq_self {i : Instr} (hi : i.opcode ≠ .init) (ha : i.opcode ≠ .acc) (hn : i.opcode ≠ .norm)
    (hw : i.opcode ≠ .wrl) (e : Engine) : effectOf i e = e := by
  cases i with
  | init _ => exact absurd rfl hi
  | acc _ _ => exact absurd rfl ha
  | norm => exact absurd rfl hn
  | wrl _ _ => exact absurd rfl hw
  | unpk _ | rdl _ | rdt _ _ _ | rds | rdc => rfl

/-- Settles O27: a completing command by `effectOf`, one that does not complete by `answer_kept_of_not_ok`. -/
theorem eachFieldHasItsWriters : Obligations.EachFieldHasItsWriters := by
  intro i s t r h ha
  obtain rfl := answered_response h ha
  have hflt := ignored_of_exec h
  simp only [SameLimbs, (exec_next_inv h).1]
  by_cases hok : (answer i s.engine).2.status = .ok
  · rw [answer_engine_of_ok hok]
    refine ⟨fun hi => (effectOf_mode_err hi _).1,
      fun hi hn => (effectOf_cout_phase hi (hn.resolve_right (absurd hok)) _).1, fun hi ha hn hw j _ => ?_,
      fun hi hn _ => (effectOf_cout_phase hi hn _).2, fun hi _ => (effectOf_mode_err hi _).2, absurd hok, hflt⟩
    rw [effectOf_eq_self hi ha hn hw]
  · obtain ⟨hmode, hcout, hlimbs⟩ := answer_kept_of_not_ok hok
    refine ⟨fun _ => hmode, fun _ _ => hcout, fun _ _ _ _ j _ => hlimbs j, fun _ _ h => absurd h hok,
      fun _ hr => ?_, fun _ j _ => hlimbs j, hflt⟩
    rw [answer_eq_ignoreFaulted i s.engine (hr.resolve_left hok), ignoreFaulted_engine]

/-! ### The invariant (10_state.md sections 2, 4 to 6) -/

/-- Settles O30: no clause looks at a limb, and the control state is that of reset. -/
theorem invariantHoldsAtReset : Obligations.InvariantHoldsAtReset where
  err_iff := by simp [State.reset]
  normd_limbs := nofun
  accum_cout := nofun
  idle_control := fun _ => ⟨rfl, rfl⟩
  upper_zero := nofun
  cout_bound := Nat.zero_le _

/-- A fault keeps the invariant: it keeps `MODE` and `COUT`, and sets `ERR` with the phase. -/
theorem raiseFault_inv (c : FaultCode) {e : Engine} (h : e.Inv) : (raiseFault c e).1.Inv where
  err_iff := by simp
  normd_limbs := nofun
  accum_cout := nofun
  idle_control := nofun
  upper_zero := nofun
  cout_bound := h.cout_bound

/-- A fresh call has the invariant, whatever came before. -/
theorem beginCall_inv (m : Mode) (e : Engine) : (beginCall m e).Inv where
  err_iff := by simp
  normd_limbs := nofun
  accum_cout := fun _ => rfl
  idle_control := nofun
  upper_zero := fun _ i _ _ => beginCall_limb m e i
  cout_bound := Nat.zero_le _

/-- Within a call `ERR` is zero. -/
theorem Engine.Inv.err_eq_none {e : Engine} (h : e.Inv) (hp : e.phase ≠ .fault) : e.err = none :=
  not_not.mp (mt h.err_iff.mpr hp)

/-- Writing architected limbs in ACCUM keeps the invariant. -/
theorem Engine.Inv.of_limbs_written {e f : Engine} (h : e.Inv) (hp : e.phase = .accum)
    (hcontrol : f.mode = e.mode ∧ f.cout = e.cout ∧ f.phase = e.phase ∧ f.err = e.err)
    (hupper : ∀ i, e.params.n ≤ i → i < NMAX → f.limb i = e.limb i) : f.Inv := by
  obtain ⟨hmode, hcout, hphase, herr⟩ := hcontrol
  have hfp : f.phase = .accum := hphase.trans hp
  have hparams : f.params = e.params := congrArg Mode.params hmode
  exact
    { err_iff := by rw [hphase, herr]; exact h.err_iff
      normd_limbs := fun hn => absurd (hfp.symm.trans hn) (by decide)
      accum_cout := fun _ => hcout.trans (h.accum_cout hp)
      idle_control := fun hi => absurd (hfp.symm.trans hi) (by decide)
      upper_zero := fun _ i hn hi => by
        rw [hparams] at hn
        exact (hupper i hn hi).trans (h.upper_zero (.inl hp) i hn hi)
      cout_bound := by rw [hparams, hcout]; exact h.cout_bound }

/-- A completing ACC keeps the invariant: it writes the `n` architected limbs. -/
theorem accumulated_inv {e : Engine} (h : e.Inv) (hp : e.phase = .accum) (v p : Nat) :
    (e.setLanes (laneSums v p e)).Inv :=
  h.of_limbs_written hp ⟨rfl, rfl, rfl, rfl⟩ fun i hn hi => setLanes_upper e _ i (by rwa [length_laneSums]) hi

/-- A completing WRL keeps the invariant: the limb it writes is architected. -/
theorem setLimb_inv {e : Engine} (h : e.Inv) (hp : e.phase = .accum) {k : Nat} (hk : k < e.params.n) (data : Word) :
    (e.setLimb k data).Inv :=
  h.of_limbs_written hp ⟨rfl, rfl, rfl, rfl⟩ fun i hn hi =>
    (limb_setLimb e k data i hi).trans (if_neg (Nat.ne_of_gt (hk.trans_le hn)))

/-- A completing NORM keeps the invariant: its limbs are remainders and its last carry is bounded (R14, R21). -/
theorem normalized_inv {e : Engine} (h : e.Inv) (hp : e.phase = .accum)
    (hsum : ∀ i < e.mode.params.n, (e.limb i).toNat + carryInto e i < wordLimit) : (effectOf .norm e).Inv where
  err_iff := by
    have herr : (effectOf .norm e).err = none := h.err_eq_none (by rw [hp]; decide)
    rw [herr]
    exact iff_of_false nofun (absurd rfl)
  normd_limbs := fun _ i hi => (reduced_limb e i hi).trans_lt (Nat.mod_lt _ (radix_pos e.mode))
  accum_cout := nofun
  idle_control := nofun
  upper_zero := fun _ i hn hi =>
    (setLanes_upper e _ i (by rwa [length_reducedLanes]) hi).trans (h.upper_zero (.inl hp) i hn hi)
  cout_bound := (carryOut_toNat hsum).trans_le (carryInto_le e _ hsum)

/-- What a completing command leaves has the invariant. -/
theorem effectOf_inv {i : Instr} {e : Engine} (h : e.Inv) (hok : (answer i e).2.status = .ok) : (effectOf i e).Inv := by
  obtain ⟨hadm, -⟩ := answer_of_ok i e hok
  cases i with
  | init m => exact beginCall_inv m e
  | acc v p => exact accumulated_inv h hadm v p
  | norm => exact normalized_inv h hadm (norm_ok_inv e hadm hok)
  | wrl k data => exact setLimb_inv h hadm ((limbInRange_iff k e).mp (answer_eq_bodyOf_of_ok hok).2.1) data
  | unpk _ | rdl _ | rdt _ _ _ | rds | rdc => exact h

/-- Every command keeps the invariant. -/
theorem answer_inv (i : Instr) {e : Engine} (h : e.Inv) : (answer i e).1.Inv := by
  by_cases hok : (answer i e).2.status = .ok
  · rw [answer_engine_of_ok hok]
    exact effectOf_inv h hok
  · obtain hign | ⟨c, hfault⟩ := ignored_or_faulted_of_not_ok hok
    · rwa [hign, ignoreFaulted_engine]
    · rw [hfault]
      exact raiseFault_inv c h

/-- Rejecting a word keeps the invariant. -/
theorem rejectWord_inv {e : Engine} (h : e.Inv) : (rejectWord e).1.Inv := by
  by_cases hp : e.phase = .fault
  · rwa [rejectWord_fault e hp, ignoreFaulted_engine]
  · rw [rejectWord_running e hp]
    exact raiseFault_inv _ h

/-- Settles O31: the four branches of a step, by `invariantHoldsAtReset`, `answer_inv` and `rejectWord_inv`. -/
theorem everyStepKeepsTheInvariant : Obligations.EveryStepKeepsTheInvariant := by
  intro s t hinv h
  obtain ⟨_, h'⟩ | ⟨_, _, h'⟩ | ⟨_, _, _, i, _, _, h'⟩ | ⟨_, _, _, _, _, _, h'⟩ := step_cases s
  all_goals obtain rfl := Host.Outcome.next.inj (h'.symm.trans h)
  · exact hinv
  · exact invariantHoldsAtReset
  · exact answer_inv i hinv
  · exact rejectWord_inv hinv

end Sys2Proof.Machine
end

section
/-! Proofs of the carry pass's laws (42_normalize.md R101, R104): NORM writes the unique radix-`R` expansion of the
value, and two bounds under which it cannot fault.

One pass preserves the value (`norm_value`), its limbs are below `R`, and a representation in radix `R` is unique
(`radix_digits`). For the bounds: a carry is at most `m` when each limb is at most `m·(R-1)`, and in any case at most
`(2^64-1) div R` as long as no sum before it overflowed. -/

namespace Sys2Proof.Machine

open Sys2Proof.Claims

/-! ### The radix expansion (R101) -/

/-- The reduced limbs and the last carry have the value of the limbs (R23, R101). -/
theorem norm_value (e : Engine) : carryInto e e.params.n * e.params.R ^ e.params.n +
    ∑ i ∈ Finset.range e.params.n, ((e.limb i).toNat + carryInto e i) % e.params.R * e.params.R ^ i = e.limbVal :=
  (carry_value e.params.R e.params.n (fun i => (e.limb i).toNat) (carryInto e) fun _ _ => rfl).trans (Nat.zero_add _)

/-- The digits of the limbs' value are the reduced limbs, and what is above them is the last carry. -/
theorem limbVal_digits (e : Engine) :
    (∀ i < e.params.n, e.limbVal / e.params.R ^ i % e.params.R = ((e.limb i).toNat + carryInto e i) % e.params.R) ∧
      e.limbVal / e.params.R ^ e.params.n = carryInto e e.params.n := by
  have hR : 0 < e.params.R := radix_pos e.mode
  rw [← norm_value e]
  exact radix_digits e.params.R e.params.n hR _ _ fun i _ => Nat.mod_lt _ hR

/-- What a completing NORM leaves: the expansion of the limbs' value in radix `R` (R101). -/
theorem normalized_expansion {e : Engine}
    (hsum : ∀ i < e.mode.params.n, (e.limb i).toNat + carryInto e i < wordLimit) :
    (∀ i < e.params.n, ((effectOf .norm e).limb i).toNat = e.limbVal / e.params.R ^ i % e.params.R) ∧
      (effectOf .norm e).cout.toNat = e.limbVal / e.params.R ^ e.params.n := by
  obtain ⟨hdigits, hcarry⟩ := limbVal_digits e
  exact ⟨fun i hi => (reduced_limb e i hi).trans (hdigits i hi).symm, (carryOut_toNat hsum).trans hcarry.symm⟩

/-- NORM preserves the value: it moves what the limbs do not hold into `COUT` (R101). -/
theorem normalized_val {e : Engine}
    (hsum : ∀ i < e.mode.params.n, (e.limb i).toNat + carryInto e i < wordLimit) :
    (effectOf .norm e).val = e.limbVal := by
  refine Eq.trans ?_ (norm_value e)
  refine congrArg₂ (· + ·) (congrArg (· * _) (carryOut_toNat hsum)) (Finset.sum_congr rfl fun i hi => ?_)
  exact congrArg (· * _) (reduced_limb e i (Finset.mem_range.mp hi))

/-- Settles O32: the expansion by `normalized_expansion`, the value by `normalized_val`, and no other expansion by
`radix_digits`. -/
theorem normWritesTheRadixExpansion : Obligations.NormWritesTheRadixExpansion := by
  intro s t r hp h ha hok
  rw [answered_response h ha] at hok
  have hsum := norm_ok_inv s.engine hp hok
  obtain ⟨hlimbs, hcout⟩ := normalized_expansion hsum
  have hengine : t.engine = effectOf .norm s.engine := (exec_next_inv h).1.trans (answer_engine_of_ok hok)
  simp only [x, hengine]
  refine ⟨hlimbs, hcout, normalized_val hsum, fun y c hy hval => ?_⟩
  obtain ⟨hdigits, hcarry⟩ := radix_digits (R s) (n s) (radix_pos s.engine.mode) y c hy
  rw [hval] at hdigits hcarry
  exact ⟨hcarry.symm.trans hcout.symm, fun i hi => (hdigits i hi).symm.trans (hlimbs i hi).symm⟩

/-! ### When NORM cannot fault (R104) -/

/-- A NORM whose sums all fit completes. -/
theorem exec_norm_of_sums_lt {s : State} (hp : s.engine.phase = .accum)
    (hsum : ∀ i < s.engine.mode.params.n, (s.engine.limb i).toNat + carryInto s.engine i < wordLimit) :
    ∃ t, exec .norm s = .next t ∧ Answered ⟨.ok, 0⟩ s t ∧ t.engine.phase = .normd := by
  refine ⟨_, exec_next .norm s, ?_⟩
  rw [answer_norm s.engine hp hsum]
  exact ⟨⟨rfl, rfl⟩, rfl⟩

theorem mul_radix_pred_add (m : Mode) (c : Nat) : c * (m.params.R - 1) + c = c * m.params.R := by
  rw [← Nat.mul_succ, Nat.succ_eq_add_one, Nat.sub_add_cancel (radix_pos m)]

/-- With every limb at most `m·(R-1)` no carry exceeds `m` (R104 a). -/
theorem carryInto_le_of_limbs_le {e : Engine} {m : Nat}
    (hx : ∀ i < e.params.n, (e.limb i).toNat ≤ m * (e.params.R - 1)) {i : Nat} (hi : i ≤ e.params.n) :
    carryInto e i ≤ m := by
  induction i with
  | zero => exact Nat.zero_le m
  | succ i ih =>
    calc carryInto e (i + 1) ≤ (m * (e.params.R - 1) + m) / e.params.R :=
          Nat.div_le_div_right (Nat.add_le_add (hx i hi) (ih (Nat.le_of_succ_le hi)))
      _ = m := by rw [mul_radix_pred_add, Nat.mul_div_cancel _ (radix_pos e.mode)]

/-- With every limb at most `m·(R-1)`, `m < 2^32`, no sum reaches `2^64` (R104 a). -/
theorem sums_lt_of_limbs_le {e : Engine} {m : Nat} (hm : m < 2 ^ 32)
    (hx : ∀ i < e.params.n, (e.limb i).toNat ≤ m * (e.params.R - 1)) :
    ∀ i < e.mode.params.n, (e.limb i).toNat + carryInto e i < wordLimit := by
  intro i hi
  calc (e.limb i).toNat + carryInto e i ≤ m * (e.params.R - 1) + m :=
        Nat.add_le_add (hx i hi) (carryInto_le_of_limbs_le hx (Nat.le_of_lt hi))
    _ = m * e.params.R := mul_radix_pred_add e.mode m
    _ ≤ m * 2 ^ 32 := Nat.mul_le_mul_left m (radix_le e.mode)
    _ < wordLimit := by unfold wordLimit; omega

/-- With every limb but the first at most `2^64 - 1 - (2^64-1) div R` no sum reaches `2^64` (R104 b). -/
theorem sums_lt_of_upper_limbs_le {e : Engine}
    (hx : ∀ i < e.params.n, 1 ≤ i → (e.limb i).toNat ≤ 2 ^ 64 - 1 - (2 ^ 64 - 1) / e.params.R) :
    ∀ i < e.mode.params.n, (e.limb i).toNat + carryInto e i < wordLimit := by
  intro i
  induction i using Nat.strong_induction_on with
  | _ i ih =>
    intro hi
    obtain rfl | hpos := Nat.eq_zero_or_pos i
    · exact (e.limb 0).isLt
    · have hlimb := hx i hi hpos
      have hcarry : carryInto e i ≤ (2 ^ 64 - 1) / e.params.R :=
        carryInto_le e i fun j hj => ih j hj (hj.trans hi)
      have hdiv : (2 ^ 64 - 1) / e.params.R ≤ 2 ^ 64 - 1 := Nat.div_le_self _ _
      change _ < 2 ^ 64
      omega

/-- Settles O33: under either bound the sums fit, and such a NORM completes (`exec_norm_of_sums_lt`). -/
theorem normCompletesWithinTheBounds : Obligations.NormCompletesWithinTheBounds :=
  ⟨fun _ _ hp hm hx => exec_norm_of_sums_lt hp (sums_lt_of_limbs_le hm hx),
    fun _ hp hx => exec_norm_of_sums_lt hp (sums_lt_of_upper_limbs_le hx)⟩

end Sys2Proof.Machine
end

section
/-! Proofs of the tables' statements (20_memory.md R32 to R34): the words of a row are the digits of `v · g^(P-1-p)`,
and the generation algorithm makes the same words.

Each round of the algorithm multiplies the number its limbs stand for (`scaleLimbs_digits`); nothing is lost, for every
weight of the table and every row fits its limbs. -/

namespace Sys2Proof.Machine

open Sys2Proof.Claims

/-! ### Properties of the rows (R34) -/

/-- The last position has weight 1 (R36). -/
theorem posWeight_last (m : Mode) : posWeight m (m.params.P - 1) = 1 := by
  rw [posWeight, Nat.sub_self, pow_zero]

theorem values_le_radix (m : Mode) : m.params.V ≤ m.params.R := by cases m <;> decide

/-- The last position holds the value itself in limb 0 (R34 item 4). -/
theorem tableWord_last {m : Mode} {v : Nat} (hv : v < m.params.V) :
    tableWord m v (m.params.P - 1) 0 = v ∧ ∀ i, 1 ≤ i → tableWord m v (m.params.P - 1) i = 0 := by
  have hR : v < m.params.R := hv.trans_le (values_le_radix m)
  simp only [tableWord, posWeight_last, mul_one]
  refine ⟨by rw [pow_zero, Nat.div_one, Nat.mod_eq_of_lt hR], fun i hi => ?_⟩
  rw [Nat.div_eq_of_lt (hR.trans_le (Nat.le_self_pow (Nat.ne_of_gt hi) _)), Nat.zero_mod]

/-- Two modes of one radix have the same words where their positions have the same weight (R34 item 5). -/
theorem tableWord_eq_of_weight_eq {m m' : Mode} {p p' : Nat} (hR : m.params.R = m'.params.R)
    (hw : posWeight m p = posWeight m' p') (v i : Nat) : tableWord m v p i = tableWord m' v p' i := by
  rw [tableWord, tableWord, hR, hw]

/-- The limbs beyond a row's number are zero. -/
theorem tableWord_beyond {m : Mode} {v p i : Nat} (hv : v < m.params.V) (hp : p < m.params.P) (hi : m.params.n ≤ i) :
    tableWord m v p i = 0 := by
  have hlt : v * posWeight m p < m.params.R ^ i :=
    (row_lt_capacity m v p hv hp).trans_le (Nat.pow_le_pow_right (radix_pos m) hi)
  rw [tableWord, Nat.div_eq_of_lt hlt, Nat.zero_mod]

/-- The ENC32 table is the ENC64 table from position 32 on: both count positions from the end. -/
theorem tableWord_enc64_eq (v p i : Nat) : tableWord .enc64 v (p + 32) i = tableWord .enc32 v p i := by
  have hexp : 64 - 1 - (p + 32) = 32 - 1 - p := by omega
  exact tableWord_eq_of_weight_eq (m := .enc64) (m' := .enc32) rfl (congrArg (256 ^ ·) hexp) v i

/-- The DEC32 table is the DEC64 table from position 44 on. -/
theorem tableWord_dec64_eq (v p i : Nat) : tableWord .dec64 v (p + 44) i = tableWord .dec32 v p i := by
  have hexp : 88 - 1 - (p + 44) = 44 - 1 - p := by omega
  exact tableWord_eq_of_weight_eq (m := .dec64) (m' := .dec32) rfl (congrArg (58 ^ ·) hexp) v i

/-- Settles O38: exact by `sum_tableWord`, reduced by `tableWord_lt`, and the tables inside each other by the positions'
weights. -/
theorem tableRowsAreExactAndReduced : Obligations.TableRowsAreExactAndReduced := by
  refine ⟨fun m v p hv hp => sum_tableWord m hv hp,
    fun m v p i => ⟨tableWord_lt m v p i, (tableWord_lt m v p i).trans_le (radix_le m)⟩, fun m p i => ?_,
    fun m v hv => tableWord_last hv, fun v p hv hp => ⟨tableWord_enc64_eq v p, fun i hi => ?_⟩,
    fun v p _ _ => tableWord_dec64_eq v p⟩
  · rw [tableWord, Nat.zero_mul, Nat.zero_div, Nat.zero_mod]
  · rw [tableWord_enc64_eq]
    exact tableWord_beyond hv hp hi

/-! ### The generation algorithm (R33) -/

/-- The `n` lowest digits of a number in radix `R`. -/
def limbDigits (R n S : Nat) : List Nat := (List.range n).map fun i => S / R ^ i % R

theorem unitLimbs_eq_limbDigits {R : Nat} (hR : 1 < R) (n : Nat) : unitLimbs n = limbDigits R n 1 := by
  refine List.map_congr_left fun i _ => ?_
  cases i with
  | zero => rw [if_pos rfl, pow_zero, Nat.div_one, Nat.mod_eq_of_lt hR]
  | succ i => rw [if_neg (Nat.succ_ne_zero i), Nat.div_eq_of_lt (Nat.one_lt_pow (Nat.succ_ne_zero i) hR), Nat.zero_mod]

/-- One multiplication of limbs that hold their number whole (R33). -/
theorem scaleLimbs_limbDigits {R n S : Nat} (hR : 0 < R) (hS : S < R ^ n) (f : Nat) :
    scaleLimbs R f 0 (limbDigits R n S) = limbDigits R n (S * f) := by
  rw [limbDigits, scaleLimbs_digits R f n hR S 0, Nat.mod_eq_of_lt hS, Nat.add_zero, limbDigits]

theorem one_lt_radix (m : Mode) : 1 < m.params.R := by cases m <;> decide

/-- A weight of the table fits its limbs (R34 item 1). -/
theorem weight_lt_capacity (m : Mode) {e : Nat} (he : e < m.params.P) :
    m.params.g ^ e < m.params.R ^ m.params.n :=
  (Nat.pow_lt_pow_right (weight_base_pos m) he).trans_le (capacity m)

/-- After `e` rounds the weight loop holds `g^e` (R33). -/
theorem generatedWeight_eq (m : Mode) {e : Nat} (he : e < m.params.P) :
    generatedWeight m e = limbDigits m.params.R m.params.n (m.params.g ^ e) := by
  induction e with
  | zero => exact unitLimbs_eq_limbDigits (one_lt_radix m) m.params.n
  | succ e ih =>
    have he' : e < m.params.P := Nat.lt_of_succ_lt he
    rw [generatedWeight, ih he', scaleLimbs_limbDigits (radix_pos m) (weight_lt_capacity m he'), pow_succ]

/-- Settles O39: the weight loop holds the position's weight (`generatedWeight_eq`), and one more multiplication makes
the row. -/
theorem generatedTablesMatchTheFormula : Obligations.GeneratedTablesMatchTheFormula := by
  intro m v p _ hp
  have he : m.params.P - 1 - p < m.params.P := by omega
  rw [generatedRow, generatedWeight_eq m he, scaleLimbs_limbDigits (radix_pos m) (weight_lt_capacity m he),
    Nat.mul_comm]
  rfl

end Sys2Proof.Machine
end

section
/-! Proofs of the statements about lists of commands (41_accumulate.md R92, R93; 70_reset_and_hazards.md R175;
43_digits_and_limbs.md R113): the order of ACC commands, how far they can grow, the documented calls, and the digits
read after them.

`accs_complete_iff` says when a list of ACC commands completes and `accs_result` what it leaves, both by the rows' sums,
which no order changes. In a call that uses each position at most once the sums are bounded by the number of positions,
and the value the limbs hold is a number of `P` digits in base `g`. -/

namespace Sys2Proof.Machine

open Sys2Proof.Claims

/-! ### Words of commands -/

/-- A well-formed command's word is that command (R61 to R64). -/
theorem roundTrip_of_wellFormed {i : Instr} (h : i.wellFormed = true) : RoundTrip i := decodeOfEncodeIsIdentity i h

theorem roundTrip_acc {v p : Nat} (hv : v < 256) (hp : p < 256) : RoundTrip (.acc v p) :=
  roundTrip_of_wellFormed (Bool.and_eq_true_iff.mpr ⟨(fitsField_iff v).mpr hv, (fitsField_iff p).mpr hp⟩)

/-- A row of a table has operands that fit their fields. -/
theorem roundTrip_acc_of_row {m : Mode} {v p : Nat} (hv : v < m.params.V) (hp : p < m.params.P) :
    RoundTrip (.acc v p) :=
  roundTrip_acc (hv.trans_le (values_le m)) ((hp.trans_le (positions_le m)).trans_le (by decide))

/-! ### The order of ACC commands (R92) -/

/-- Settles O34: completion and result are decided by the rows and their sums, the same for every order. -/
theorem accOrderDoesNotMatter : Obligations.AccOrderDoesNotMatter := by
  intro s t rows rows' ds hpend hp hfit hperm h
  have hfit' : ∀ q ∈ rows', q.1 < 256 ∧ q.2 < 256 := fun q hq => hfit q (hperm.mem_iff.mpr hq)
  have hd := fun q hq => roundTrip_acc (hfit q hq).1 (hfit q hq).2
  have hd' := fun q hq => roundTrip_acc (hfit' q hq).1 (hfit' q hq).2
  have hsum : ∀ i, (rows'.map fun q => tableWord s.engine.mode q.1 q.2 i).sum =
      (rows.map fun q => tableWord s.engine.mode q.1 q.2 i).sum := fun i => (hperm.map _).sum_eq.symm
  obtain ⟨hrange, hlt⟩ := (accs_complete_iff rows s hpend hp hd).mp ⟨_, h⟩
  obtain ⟨⟨ds', t'⟩, h'⟩ := (accs_complete_iff rows' s hpend hp hd').mpr
    ⟨fun q hq => hrange q (hperm.mem_iff.mpr hq), fun i hi => (hsum i).symm ▸ hlt i hi⟩
  obtain ⟨-, hphase, hmode, hcout, herr, hlimbs, hupper⟩ := accs_result rows s hpend hp hd ds t h
  obtain ⟨-, hphase', hmode', hcout', herr', hlimbs', hupper'⟩ := accs_result rows' s hpend hp hd' ds' t' h'
  refine ⟨ds', t', h', engine_ext _ _ (fun i hi => ?_) (hcout'.trans hcout.symm) (hmode'.trans hmode.symm)
    (hphase'.trans hphase.symm) (herr'.trans herr.symm)⟩
  by_cases hn : i < s.engine.mode.params.n
  · exact BitVec.eq_of_toNat_eq (by rw [hlimbs' i hn, hlimbs i hn, hsum])
  · rw [hupper' i (Nat.not_lt.mp hn) hi, hupper i (Nat.not_lt.mp hn) hi]

/-! ### The growth bound (R93) -/

/-- The sum of the words that rows add to one limb is at most `m·(R-1)` for `m` rows (R93). -/
theorem sum_words_le (m : Mode) (rows : List (Nat × Nat)) (i : Nat) :
    (rows.map fun q => tableWord m q.1 q.2 i).sum ≤ rows.length * (m.params.R - 1) := by
  have hword : ∀ y ∈ rows.map (fun q => tableWord m q.1 q.2 i), y ≤ m.params.R - 1 := by
    intro y hy
    obtain ⟨q, -, rfl⟩ := List.mem_map.mp hy
    exact Nat.le_sub_one_of_lt (tableWord_lt m q.1 q.2 i)
  simpa using List.sum_le_card_nsmul _ _ hword

/-- Fewer than `2^32` words do not reach `2^64` (R93). -/
theorem sum_words_lt {m : Mode} {rows : List (Nat × Nat)} (hlen : rows.length < 2 ^ 32) (i : Nat) :
    (rows.map fun q => tableWord m q.1 q.2 i).sum < wordLimit := by
  calc (rows.map fun q => tableWord m q.1 q.2 i).sum ≤ rows.length * (m.params.R - 1) := sum_words_le m rows i
    _ ≤ rows.length * 2 ^ 32 := Nat.mul_le_mul_left _ ((Nat.sub_le _ 1).trans (radix_le m))
    _ < wordLimit := by unfold wordLimit; omega

/-- The machine after an INIT issued with nothing outstanding: a fresh call, the INIT answered. -/
def afterInit (m : Mode) (s : State) : State :=
  { engine := beginCall m s.engine, pending := [], responses := s.responses ++ [⟨.ok, 0⟩] }

theorem issue_init (m : Mode) {s : State} (hpend : s.pending = []) : issue (.init m) s = some (0, afterInit m s) :=
  issue_ok hpend (roundTrip_of_wellFormed rfl) (answer_init m s.engine)

/-- What the engine holds after INIT and rows accumulated: the call's mode, and each limb the sum of its words. -/
structure Accumulated (m : Mode) (rows : List (Nat × Nat)) (t : State) : Prop where
  pending : t.pending = []
  phase : t.engine.phase = .accum
  mode : t.engine.mode = m
  limbs : ∀ i < m.params.n, (t.engine.limb i).toNat = (rows.map fun q => tableWord m q.1 q.2 i).sum

/-- Every limb of a fresh call is zero (R80). -/
theorem afterInit_limb_toNat (m : Mode) (s : State) (i : Nat) : ((afterInit m s).engine.limb i).toNat = 0 :=
  congrArg BitVec.toNat (beginCall_limb m s.engine i)

/-- Fewer than `2^32` ACC commands in range complete after INIT. -/
theorem issueAll_accs {m : Mode} {rows : List (Nat × Nat)} (s : State) (hlen : rows.length < 2 ^ 32)
    (hrows : ∀ q ∈ rows, q.1 < m.params.V ∧ q.2 < m.params.P) :
    ∃ ds t, issueAll (rows.map fun q => .acc q.1 q.2) (afterInit m s) = some (ds, t) ∧ Accumulated m rows t := by
  have hd := fun q hq => roundTrip_acc_of_row (hrows q hq).1 (hrows q hq).2
  obtain ⟨⟨ds, t⟩, h⟩ := (accs_complete_iff rows (afterInit m s) rfl rfl hd).mpr
    ⟨hrows, fun i _ => by rw [afterInit_limb_toNat, Nat.zero_add]; exact sum_words_lt hlen i⟩
  obtain ⟨hpend, hphase, hmode, -, -, hlimbs, -⟩ := accs_result rows (afterInit m s) rfl rfl hd ds t h
  refine ⟨ds, t, h, hpend, hphase, hmode, fun i hi => (hlimbs i hi).trans ?_⟩
  rw [afterInit_limb_toNat, Nat.zero_add]
  rfl

/-- INIT and then a list of commands, issued. -/
theorem issueAll_init_cons {m : Mode} {s t : State} {l : List Instr} {ds : List Word} (hpend : s.pending = [])
    (h : issueAll l (afterInit m s) = some (ds, t)) : issueAll (.init m :: l) s = some (0 :: ds, t) := by
  simp only [issueAll, issue_init m hpend, h]

/-- Settles O35: the commands complete by `issueAll_accs`, and the sums are bounded by `sum_words_le`. -/
theorem accGrowthIsBounded : Obligations.AccGrowthIsBounded := by
  intro m rows s hpend hlen hrows
  obtain ⟨ds, t, h, ht⟩ := issueAll_accs s hlen hrows
  exact ⟨_, t, issueAll_init_cons hpend h, ht.phase, ht.mode, fun i hi =>
    ⟨ht.limbs i hi, (ht.limbs i hi).trans_le (sum_words_le m rows i)⟩⟩

/-! ### The documented calls (R175) -/

/-- The number that rows stand for: `Σ v·g^(P-1-p)` (R34, R175). -/
def rowsValue (m : Mode) (rows : List (Nat × Nat)) : Nat := (rows.map fun q => q.1 * posWeight m q.2).sum

/-- The sums of the rows' words represent the number the rows stand for. -/
theorem sum_words_value {m : Mode} {rows : List (Nat × Nat)}
    (hrows : ∀ q ∈ rows, q.1 < m.params.V ∧ q.2 < m.params.P) :
    ∑ i ∈ Finset.range m.params.n, (rows.map fun q => tableWord m q.1 q.2 i).sum * m.params.R ^ i =
      rowsValue m rows := by
  induction rows with
  | nil => simp [rowsValue]
  | cons q rows ih =>
    obtain ⟨hv, hp⟩ := hrows q List.mem_cons_self
    have hrest := ih fun q' hq' => hrows q' (List.mem_cons_of_mem q hq')
    simp only [rowsValue, List.map_cons, List.sum_cons, Nat.add_mul, Finset.sum_add_distrib] at hrest ⊢
    rw [sum_tableWord m hv hp, hrest]

/-- Rows at distinct positions are the digits of a number below `g^P` (R175 d). -/
theorem rowsValue_lt {m : Mode} {rows : List (Nat × Nat)} (hrows : ∀ q ∈ rows, q.1 < m.params.V ∧ q.2 < m.params.P)
    (hnodup : (rows.map Prod.snd).Nodup) : rowsValue m rows < m.params.g ^ m.params.P := by
  have hdigit : rowsValue m rows ≤ ((rows.map Prod.snd).map fun p => (m.params.g - 1) * posWeight m p).sum := by
    rw [List.map_map]
    refine List.sum_le_sum fun q hq => Nat.mul_le_mul_right _ (Nat.le_sub_one_of_lt ?_)
    rw [← values_eq_weight]
    exact (hrows q hq).1
  have hpositions : (rows.map Prod.snd).toFinset ⊆ Finset.range m.params.P := by
    intro p hp
    obtain ⟨q, hq, rfl⟩ := List.mem_map.mp (List.mem_toFinset.mp hp)
    exact Finset.mem_range.mpr (hrows q hq).2
  calc rowsValue m rows ≤ ∑ p ∈ (rows.map Prod.snd).toFinset, (m.params.g - 1) * posWeight m p :=
        hdigit.trans_eq (List.sum_toFinset _ hnodup).symm
    _ ≤ ∑ p ∈ Finset.range m.params.P, (m.params.g - 1) * posWeight m p := Finset.sum_le_sum_of_subset hpositions
    _ = ∑ e ∈ Finset.range m.params.P, (m.params.g - 1) * m.params.g ^ e :=
        Finset.sum_range_reflect (fun e => (m.params.g - 1) * m.params.g ^ e) m.params.P
    _ < m.params.g ^ m.params.P :=
        radix_lt _ _ _ fun _ _ => Nat.sub_one_lt (Nat.ne_of_gt (Nat.zero_lt_of_lt (weight_base_pos m)))

/-- Rows at distinct positions are no more than the positions. -/
theorem length_le_positions {m : Mode} {rows : List (Nat × Nat)} (hrows : ∀ q ∈ rows, q.2 < m.params.P)
    (hnodup : (rows.map Prod.snd).Nodup) : rows.length ≤ m.params.P := by
  have hsub : rows.map Prod.snd ⊆ List.range m.params.P := by
    intro p hp
    obtain ⟨q, hq, rfl⟩ := List.mem_map.mp hp
    exact List.mem_range.mpr (hrows q hq)
  simpa using (List.subperm_of_subset hnodup hsub).length_le

/-- The limbs hold the number the rows stand for. -/
theorem Accumulated.limbVal_eq {m : Mode} {rows : List (Nat × Nat)} {t : State} (h : Accumulated m rows t)
    (hrows : ∀ q ∈ rows, q.1 < m.params.V ∧ q.2 < m.params.P) : t.engine.limbVal = rowsValue m rows := by
  rw [← sum_words_value hrows]
  simp only [Engine.limbVal, Engine.params, h.mode]
  exact Finset.sum_congr rfl fun i hi => by rw [h.limbs i (Finset.mem_range.mp hi)]

/-- What the engine holds after the NORM of a documented call: the radix expansion of a number that fits the limbs. -/
structure Normalised (m : Mode) (S : Nat) (u : State) : Prop where
  pending : u.pending = []
  phase : u.engine.phase = .normd
  mode : u.engine.mode = m
  cout : u.engine.cout = 0
  limbs : ∀ i < m.params.n, (u.engine.limb i).toNat = S / m.params.R ^ i % m.params.R
  val : u.engine.val = S

/-- NORM completes after rows at distinct positions and leaves the expansion of the number they stand for. -/
theorem Accumulated.issue_norm {m : Mode} {rows : List (Nat × Nat)} {t : State} (h : Accumulated m rows t)
    (hrows : ∀ q ∈ rows, q.1 < m.params.V ∧ q.2 < m.params.P) (hnodup : (rows.map Prod.snd).Nodup) :
    ∃ d u, issue .norm t = some (d, u) ∧ Normalised m (rowsValue m rows) u := by
  have hlen : rows.length < 2 ^ 32 :=
    ((length_le_positions (fun q hq => (hrows q hq).2) hnodup).trans (positions_le m)).trans_lt (by decide)
  have hS : t.engine.limbVal = rowsValue m rows := h.limbVal_eq hrows
  have hsum := sums_lt_of_limbs_le (e := t.engine) hlen fun i hi => by
    rw [Engine.params, h.mode] at hi ⊢
    exact (h.limbs i hi).trans_le (sum_words_le m rows i)
  obtain ⟨hlimbs, hcout⟩ := normalized_expansion hsum
  have hval := normalized_val hsum
  simp only [Engine.params, h.mode, hS] at hlimbs hcout hval
  refine ⟨0, _, issue_ok h.pending (roundTrip_of_wellFormed rfl) (answer_norm t.engine h.phase hsum), rfl, rfl, h.mode,
    BitVec.eq_of_toNat_eq (hcout.trans ?_), hlimbs, hval⟩
  exact Nat.div_eq_of_lt ((rowsValue_lt hrows hnodup).trans_le (capacity m))

/-- `P·(R-1)` is far below the register width (R175 b). -/
theorem positions_mul_radix_lt (m : Mode) : m.params.P * (m.params.R - 1) < 2 ^ 39 := by cases m <;> decide

/-- Settles O37: the ACC commands by `issueAll_accs`, the NORM by `Accumulated.issue_norm`, the bound on the value by
`rowsValue_lt`. -/
theorem documentedCallsNeverOverflow : Obligations.DocumentedCallsNeverOverflow := by
  intro m rows s hpend hrows hnodup
  have hlen := length_le_positions (fun q hq => (hrows q hq).2) hnodup
  obtain ⟨ds, t, h, ht⟩ := issueAll_accs s ((hlen.trans (positions_le m)).trans_lt (by decide)) hrows
  obtain ⟨d, u, hnorm, hu⟩ := ht.issue_norm hrows hnodup
  refine ⟨_, t, [d], u, issueAll_init_cons hpend h, fun i hi => ?_, by simp only [issueAll, hnorm], hu.phase, hu.mode,
    hu.cout, fun i hi => ?_, hu.val, ?_⟩
  · have hlimb : x t i ≤ m.params.P * (m.params.R - 1) := by
      rw [x, ht.limbs i hi]
      exact (sum_words_le m rows i).trans (Nat.mul_le_mul_right _ hlen)
    exact ⟨hlimb, hlimb.trans_lt (positions_mul_radix_lt m)⟩
  · rw [x, hu.limbs i hi]
    exact Nat.mod_lt _ (radix_pos m)
  · rw [hu.val]
    exact Nat.le_sub_one_of_lt (rowsValue_lt hrows hnodup)

/-! ### The digits (R113) -/

/-- The digits of all the limbs hold what the limbs hold (R2). -/
theorem radix_pow_eq_base_pow (m : Mode) : m.params.R ^ m.params.n = m.params.b ^ (m.params.n * m.params.k) := by
  rw [Params.R, ← pow_mul, Nat.mul_comm]

/-- Digits most significant first, weighted, are the number they are the digits of. -/
theorem sum_digits_reflect {b D S : Nat} (hS : S < b ^ D) :
    ∑ j ∈ Finset.range D, S / b ^ (D - 1 - j) % b * b ^ (D - 1 - j) = S := by
  rw [Finset.sum_range_reflect (fun e => S / b ^ e % b * b ^ e), radix_of_digits, Nat.mod_eq_of_lt hS]

/-- Settles O36: digit `j` is a base-`b` digit of the limbs' number (`digitValue_eq`), and the digits sum to it. -/
theorem digitsRepresentTheLimbs : Obligations.DigitsRepresentTheLimbs := by
  intro s d hp hx hd
  have hdigit : ∀ j < n s * s.engine.mode.params.k, (d j).toNat = digitValue s.engine j := by
    intro j hj
    obtain ⟨t, hexec, ha⟩ := hd j hj
    have hr := answered_response hexec ha
    rw [answer_unpk s.engine j hp hj] at hr
    rw [(Response.mk.inj hr).2, zext64_digitValue_toNat]
  have hS : ∑ i ∈ Finset.range (n s), x s i * R s ^ i < s.engine.mode.params.b ^ (n s * s.engine.mode.params.k) :=
    (radix_lt _ _ _ hx).trans_eq (radix_pow_eq_base_pow s.engine.mode)
  have hlimbs := (radix_digits (R s) (n s) (radix_pos s.engine.mode) (x s) 0 hx).1
  rw [Nat.zero_mul, Nat.zero_add] at hlimbs
  refine ⟨fun j hj => ?_, ?_, (Nat.add_sub_cancel_left _ _).symm⟩
  · rw [hdigit j hj]
    exact Nat.mod_lt _ (Nat.zero_lt_of_lt (base_pos s.engine.mode))
  · refine Eq.trans (Finset.sum_congr rfl fun j hj => ?_) (sum_digits_reflect hS)
    have hj := Finset.mem_range.mp hj
    rw [hdigit j hj, digitValue_eq s.engine _ j hj fun i hi => (hlimbs i hi).symm]

end Sys2Proof.Machine
end

section
/-! The digit lists of the host procedures (44_host_procedures.md sections 2 and 3), for both directions.

A buffer or a text is a list of digits, most significant first, whose leading zeros the host drops; the ACC rows it
issues are the other digits, one to a position up to the last, and stand for its number (`rowsValue_zipIdx`). NORM
leaves that number's radix expansion and the UNPK answers are its digits in the other base, padded to the front with zeros
(`unpacked_eq_padded`). -/

namespace Sys2Proof.Machine

open Sys2Proof.Claims

/-! ### Leading elements -/

theorem takeWhile_append_drop_leadingCount {α : Type} (p : α → Bool) (l : List α) :
    l.takeWhile p ++ l.drop (leadingCount p l) = l :=
  List.prefix_iff_eq_append.mp (List.takeWhile_prefix p)

/-- A list is its leading copies of an element and the rest. -/
theorem replicate_append_drop_leadingCount {α : Type} [BEq α] [LawfulBEq α] (a : α) (l : List α) :
    List.replicate (leadingCount (· == a) l) a ++ l.drop (leadingCount (· == a) l) = l := by
  have htake : l.takeWhile (· == a) = List.replicate (leadingCount (· == a) l) a :=
    List.eq_replicate_iff.mpr ⟨rfl, fun b hb => eq_of_beq (List.mem_takeWhile_imp (p := (· == a)) hb)⟩
  rw [← htake, takeWhile_append_drop_leadingCount]

theorem leadingCount_replicate_append {α : Type} {p : α → Bool} {a : α} (ha : p a = true) (k : Nat) (l : List α) :
    leadingCount p (List.replicate k a ++ l) = k + leadingCount p l := by
  have hall : ∀ b ∈ List.replicate k a, p b = true := fun b hb => (List.eq_of_mem_replicate hb).symm ▸ ha
  rw [leadingCount, List.takeWhile_append_of_pos hall, List.length_append, List.length_replicate, leadingCount]

/-- The leading elements end before the first that fails. -/
theorem leadingCount_append_cons_le {α : Type} {p : α → Bool} {c : α} (hc : p c = false) (l rest : List α) :
    leadingCount p (l ++ c :: rest) ≤ l.length := by
  induction l with
  | nil => simp [leadingCount, hc]
  | cons a l ih =>
    rw [List.cons_append, leadingCount, List.takeWhile_cons]
    split
    · exact Nat.succ_le_succ ih
    · exact Nat.zero_le _

/-- A number's digits, most significant first, do not begin with zero. -/
theorem leadingCount_digits {α : Type} {p : α → Bool} {f : Nat → α} {b : Nat} (hb : 1 < b)
    (hf : ∀ d < b, d ≠ 0 → p (f d) = false) (S : Nat) : leadingCount p ((Nat.digits b S).reverse.map f) = 0 := by
  obtain rfl | hS := Nat.eq_zero_or_pos S
  · rw [Nat.digits_zero, List.reverse_nil, List.map_nil, leadingCount, List.takeWhile_nil, List.length_nil]
  · have hne := (Nat.digits_ne_nil_iff_ne_zero (b := b)).mpr (Nat.ne_of_gt hS)
    have hlead := hf _ (Nat.digits_lt_base hb (List.getLast_mem hne)) (Nat.getLast_digit_ne_zero b (Nat.ne_of_gt hS))
    rw [← List.dropLast_append_getLast hne, List.reverse_append, List.reverse_singleton, List.singleton_append,
      List.map_cons, leadingCount, List.takeWhile_cons_of_neg (Bool.eq_false_iff.mp hlead), List.length_nil]

/-! ### Numbers written most significant digit first -/

/-- The number of a list of digits, most significant first, ignores leading zeros. -/
theorem ofDigits_reverse_replicate_zero_append (b k : Nat) (l : List Nat) :
    Nat.ofDigits b (List.replicate k 0 ++ l).reverse = Nat.ofDigits b l.reverse := by
  rw [List.reverse_append, List.reverse_replicate, Nat.ofDigits_append_replicate_zero]

/-- Leading copies of a character of value zero do not count in the number of a text or buffer. -/
theorem ofDigits_drop_leadingCount {f : Byte → Nat} {a : Byte} (ha : f a = 0) (b : Nat) (l : List Byte) :
    Nat.ofDigits b ((l.drop (leadingCount (· == a) l)).map f).reverse = Nat.ofDigits b (l.reverse.map f) := by
  conv_rhs =>
    rw [List.map_reverse, ← replicate_append_drop_leadingCount a l, List.map_append, List.map_replicate, ha,
      ofDigits_reverse_replicate_zero_append]

/-! ### Rows of a digit list -/

/-- Digits placed from position `k` to the last stand for their number (R36). -/
theorem rowsValue_zipIdx {m : Mode} {ds : List Nat} {k : Nat} (hk : k + ds.length = m.params.P) :
    rowsValue m (ds.zipIdx k) = Nat.ofDigits m.params.g ds.reverse := by
  induction ds generalizing k with
  | nil => rfl
  | cons d ds ih =>
    have hk' : k + 1 + ds.length = m.params.P := by rw [List.length_cons] at hk; omega
    have hweight : m.params.P - 1 - k = ds.length := by omega
    rw [List.zipIdx_cons, rowsValue, List.map_cons, List.sum_cons, ← rowsValue, ih hk', posWeight, hweight,
      List.reverse_cons, Nat.ofDigits_append, Nat.ofDigits_singleton, List.length_reverse, Nat.add_comm, Nat.mul_comm]

/-- Digits of the table's base placed up to its last position are rows of the table. -/
theorem zipIdx_inRange {m : Mode} {ds : List Nat} {k : Nat} (hk : k + ds.length ≤ m.params.P)
    (hds : ∀ d ∈ ds, d < m.params.V) : ∀ q ∈ ds.zipIdx k, q.1 < m.params.V ∧ q.2 < m.params.P := by
  intro q hq
  have hpos := List.snd_lt_of_mem_zipIdx hq
  exact ⟨hds q.1 (List.fst_mem_of_mem_zipIdx hq), by omega⟩

/-- Each digit has a position of its own. -/
theorem zipIdx_positions_nodup (ds : List Nat) (k : Nat) : ((ds.zipIdx k).map Prod.snd).Nodup := by
  rw [List.zipIdx_map_snd]
  exact List.nodup_range'

/-- Digits of the table's base placed within its positions are accumulated after INIT. -/
theorem issueAll_digits {m : Mode} {ds : List Nat} {k : Nat} (s : State) (hk : k + ds.length ≤ m.params.P)
    (hds : ∀ d ∈ ds, d < m.params.V) :
    ∃ a t, issueAll ((ds.zipIdx k).map fun q => .acc q.1 q.2) (afterInit m s) = some (a, t) ∧
      Accumulated m (ds.zipIdx k) t := by
  have hP := positions_le m
  exact issueAll_accs s (by rw [List.length_zipIdx]; omega) (zipIdx_inRange hk hds)

/-- Accumulated up to the last position, they are normalised to their number, which the digits read after it hold. -/
theorem Accumulated.issue_norm_digits {m : Mode} {ds : List Nat} {k : Nat} {t : State}
    (h : Accumulated m (ds.zipIdx k) t) (hk : k + ds.length = m.params.P) (hds : ∀ d ∈ ds, d < m.params.V) :
    Nat.ofDigits m.params.g ds.reverse < m.params.b ^ m.params.digits ∧
      ∃ d u, issue .norm t = some (d, u) ∧ Normalised m (Nat.ofDigits m.params.g ds.reverse) u := by
  have hrows := zipIdx_inRange hk.le hds
  have hnodup := zipIdx_positions_nodup ds k
  rw [← rowsValue_zipIdx hk]
  exact ⟨((rowsValue_lt hrows hnodup).trans_le (capacity m)).trans_eq (radix_pow_eq_base_pow m),
    h.issue_norm hrows hnodup⟩

/-! ### The digits read back -/

/-- What UNPK answers for every digit index, when the limbs hold `S`: its digits, most significant first (R113). -/
def unpacked (m : Mode) (S : Nat) : List Word :=
  (List.range m.params.digits).map fun j => zext64 (S / m.params.b ^ (m.params.digits - 1 - j) % m.params.b)

/-- RDC after a documented call reads zero and changes nothing. -/
theorem Normalised.issue_rdc {m : Mode} {S : Nat} {u : State} (h : Normalised m S u) :
    ∃ u', issue .rdc u = some (0, u') ∧ Normalised m S u' := by
  have hans : answer .rdc u.engine = respondOk u.engine.cout u.engine :=
    answer_body .rdc u.engine ((admits_iff_admitted .rdc _).mpr (.inr h.phase)) rfl
  rw [h.cout] at hans
  exact ⟨_, issue_ok h.pending (roundTrip_of_wellFormed rfl) hans, rfl, h.phase, h.mode, h.cout, h.limbs, h.val⟩

theorem digits_le (m : Mode) : m.params.digits ≤ 256 := by cases m <;> decide

/-- Every digit, read after a documented call. -/
theorem Normalised.issueAll_unpackAll {m : Mode} {S : Nat} {u : State} (h : Normalised m S u) :
    ∃ u', issueAll (unpackAll m) u = some (unpacked m S, u') ∧ u'.pending = [] := by
  have hfit : ∀ i ∈ unpackAll m, RoundTrip i := by
    intro i hi
    obtain ⟨j, hj, rfl⟩ := List.mem_map.mp hi
    exact roundTrip_of_wellFormed ((fitsField_iff j).mpr ((List.mem_range.mp hj).trans_le (digits_le m)))
  have hread : ∀ i ∈ unpackAll m, answer i u.engine = respondOk (resultOf i u.engine) u.engine := by
    intro i hi
    obtain ⟨j, hj, rfl⟩ := List.mem_map.mp hi
    exact answer_unpk u.engine j h.phase (by rw [h.mode]; exact List.mem_range.mp hj)
  have hdigits : (unpackAll m).map (resultOf · u.engine) = unpacked m S := by
    rw [unpackAll, List.map_map]
    refine List.map_congr_left fun j hj => congrArg zext64 ?_
    have hdigit := digitValue_eq u.engine S j
    rw [h.mode] at hdigit
    exact hdigit (List.mem_range.mp hj) h.limbs
  exact ⟨_, hdigits ▸ issueAll_reads (unpackAll m) (resultOf · u.engine) u h.pending hfit hread, rfl⟩

theorem base_le (m : Mode) : m.params.b ≤ 256 := by cases m <;> decide

/-- A digit's word is zero only for the digit zero. -/
theorem zext64_digit_beq_zero {m : Mode} {d : Nat} (hd : d < m.params.b) (hne : d ≠ 0) :
    (zext64 d == 0) = false := by
  have hb := base_le m
  refine beq_eq_false_iff_ne.mpr fun h => hne ?_
  have h := congrArg BitVec.toNat h
  rw [zext64, BitVec.toNat_ofNat, Nat.mod_eq_of_lt (by omega)] at h
  exact h

/-- The digits read are the number's ordinary expansion behind zeros. -/
theorem unpacked_eq_padded {m : Mode} {S : Nat} (hS : S < m.params.b ^ m.params.digits) : unpacked m S =
    List.replicate (m.params.digits - (Nat.digits m.params.b S).length) 0 ++
      (Nat.digits m.params.b S).reverse.map zext64 := by
  have h := congrArg (List.map zext64) (digits_padded m.params.b m.params.digits S (base_pos m) hS)
  rw [List.map_map, List.map_append, List.map_replicate] at h
  exact h

/-- The leading zeros of the digits read are the digits the number does not need. -/
theorem leadingCount_unpacked {m : Mode} {S : Nat} (hS : S < m.params.b ^ m.params.digits) :
    leadingCount (· == 0) (unpacked m S) = m.params.digits - (Nat.digits m.params.b S).length := by
  rw [unpacked_eq_padded hS, leadingCount_replicate_append rfl,
    leadingCount_digits (p := (· == 0)) (f := zext64) (base_pos m) (fun _ => zext64_digit_beq_zero), Nat.add_zero]

end Sys2Proof.Machine
end

section
/-! Proof of the encoder's statement (44_host_procedures.md R124, R125): `encode_N` gives the ordinary Base58 text.

The bytes after the leading zeros are the digits in base 256 of the magnitude, and the digits read back are its ordinary
expansion in base 58. The length is bounded because `58^L(N)` holds `256^N` and a leading `'1'` stands for a byte. -/

namespace Sys2Proof.Machine

open Sys2Proof.Claims

/-- The encoder's table: rows of bytes at `N` positions, read back in base 58 (R120). -/
theorem encMode_params (w : Width) : w.encMode.params.V = 256 ∧ w.encMode.params.P = w.bytes ∧
    w.encMode.params.g = 256 ∧ w.encMode.params.b = 58 := by cases w <;> exact ⟨rfl, rfl, rfl, rfl⟩

/-- The encoder's ACC commands are the bytes after the leading zeros, each at its own place. -/
theorem encodeRows_eq {w : Width} {buf : List Byte} (hlen : buf.length = w.bytes) (z : Nat) : encodeRows w z buf =
    (((buf.drop z).map BitVec.toNat).zipIdx z).map fun q => .acc q.1 q.2 := by
  refine List.ext_getElem (by simp [encodeRows, hlen]) fun j hj _ => ?_
  have hj' : z + j < buf.length := by
    simp only [encodeRows, List.length_map, List.length_drop, List.length_range] at hj
    omega
  simp [encodeRows, List.getD_eq_getElem?_getD, hj']

theorem magnitude_lt (buf : List Byte) : magnitude buf < 256 ^ buf.length := by
  have hbyte : ∀ d ∈ buf.reverse.map BitVec.toNat, d < 256 := by
    intro d hd
    obtain ⟨c, -, rfl⟩ := List.mem_map.mp hd
    exact c.isLt
  have hlt := Nat.ofDigits_lt_base_pow_length (by decide) hbyte
  rwa [List.length_map, List.length_reverse] at hlt

/-- A buffer's magnitude fits in the bytes after its leading zeros (R123). -/
theorem magnitude_lt_of_zeros (buf : List Byte) : magnitude buf < 256 ^ (buf.length - zeros buf) := by
  have hlt := magnitude_lt (buf.drop (zeros buf))
  rw [List.length_drop, magnitude, List.map_reverse] at hlt
  rwa [magnitude, ← ofDigits_drop_leadingCount (a := (0 : Byte)) rfl]

theorem leadingCount_le_length {α : Type} (p : α → Bool) (l : List α) : leadingCount p l ≤ l.length :=
  (List.takeWhile_prefix p).length_le

theorem base58_length (buf : List Byte) :
    (base58 buf).length = zeros buf + (Nat.digits 58 (magnitude buf)).length := by simp [base58]

/-- The text of a buffer has at most `L(N)` characters: a leading `'1'` stands for a whole byte (R125). -/
theorem base58_length_le {w : Width} {buf : List Byte} (hlen : buf.length = w.bytes) :
    (base58 buf).length ≤ w.maxText := by
  have hz : zeros buf ≤ w.bytes := hlen ▸ leadingCount_le_length _ buf
  have hzL : zeros buf ≤ w.maxText := hz.trans (by cases w <;> decide)
  have hpow : 58 ^ zeros buf * 256 ^ (w.bytes - zeros buf) ≤ 58 ^ zeros buf * 58 ^ (w.maxText - zeros buf) := by
    calc 58 ^ zeros buf * 256 ^ (w.bytes - zeros buf)
        ≤ 256 ^ zeros buf * 256 ^ (w.bytes - zeros buf) :=
          Nat.mul_le_mul_right _ (Nat.pow_le_pow_left (by decide) _)
      _ = 256 ^ w.bytes := by rw [← pow_add, Nat.add_sub_cancel' hz]
      _ ≤ 58 ^ w.maxText := byte_pow_le_pow_maxText w
      _ = 58 ^ zeros buf * 58 ^ (w.maxText - zeros buf) := by rw [← pow_add, Nat.add_sub_cancel' hzL]
  have hfit : magnitude buf < 58 ^ (w.maxText - zeros buf) :=
    (hlen ▸ magnitude_lt_of_zeros buf).trans_le (Nat.le_of_mul_le_mul_left hpow (Nat.pow_pos (by decide)))
  have hdigits := (Nat.digits_length_le_iff (by decide) _).mpr hfit
  rw [base58_length]
  omega

/-- Only digit 0 is written `'1'` (R121). -/
theorem digitChar_beq_charOne {d : Nat} (hd : d < 58) (hne : d ≠ 0) : (digitChar d == charOne) = false :=
  beq_eq_false_iff_ne.mpr fun h =>
    hne ((charDigit_digitChar d hd).symm.trans ((congrArg charDigit h).trans (charDigit_digitChar 0 (by decide))))

/-- A text has as many leading `'1'`s as its buffer leading zero bytes: the expansion begins with none. -/
theorem ones_base58 (buf : List Byte) : ones (base58 buf) = zeros buf := by
  change leadingCount (· == charOne) (base58 buf) = zeros buf
  rw [base58, leadingCount_replicate_append (by decide), leadingCount_digits (p := (· == charOne)) (by decide)
    (fun _ => digitChar_beq_charOne), Nat.add_zero]

/-- The characters of the digits read, leading zeros dropped, are those of the number's expansion. -/
theorem drop_unpacked_map_digitChar {m : Mode} {S : Nat} (hS : S < m.params.b ^ m.params.digits) :
    ((unpacked m S).drop (m.params.digits - (Nat.digits m.params.b S).length)).map (fun x => digitChar x.toNat) =
      (Nat.digits m.params.b S).reverse.map digitChar := by
  have hword : ∀ d ∈ (Nat.digits m.params.b S).reverse, digitChar (zext64 d).toNat = digitChar d := by
    intro d hd
    have hlt := Nat.digits_lt_base (base_pos m) (List.mem_reverse.mp hd)
    have hb := base_le m
    rw [zext64, BitVec.toNat_ofNat, Nat.mod_eq_of_lt (by omega)]
  rw [unpacked_eq_padded hS, List.drop_left' List.length_replicate, List.map_map]
  exact List.map_congr_left hword

theorem digits_length_le {m : Mode} {S : Nat} (hS : S < m.params.b ^ m.params.digits) :
    (Nat.digits m.params.b S).length ≤ m.params.digits := (Nat.digits_length_le_iff (base_pos m) S).mpr hS

/-- The encoder's call: it completes, and its text is the ordinary one. -/
theorem encodeText_eq {w : Width} {buf : List Byte} {s : State} (hpend : s.pending = [])
    (hlen : buf.length = w.bytes) :
    ∃ t, encodeText w buf s = some ((base58 buf, (base58 buf).length), t) ∧ t.pending = [] := by
  obtain ⟨hV, hP, hg, hb⟩ := encMode_params w
  have hz : zeros buf ≤ buf.length := leadingCount_le_length _ buf
  have hk : zeros buf + ((buf.drop (zeros buf)).map BitVec.toNat).length = w.encMode.params.P := by
    rw [hP, List.length_map, List.length_drop]
    omega
  have hbyte : ∀ d ∈ (buf.drop (zeros buf)).map BitVec.toNat, d < w.encMode.params.V := by
    intro d hd
    obtain ⟨c, -, rfl⟩ := List.mem_map.mp hd
    exact hV ▸ c.isLt
  have hvalue : Nat.ofDigits w.encMode.params.g ((buf.drop (zeros buf)).map BitVec.toNat).reverse = magnitude buf := by
    rw [hg]
    exact ofDigits_drop_leadingCount (a := (0 : Byte)) rfl 256 buf
  obtain ⟨_, t, hacc, ht⟩ := issueAll_digits s hk.le hbyte
  obtain ⟨hfit, _, u, hnorm, hu⟩ := ht.issue_norm_digits hk hbyte
  obtain ⟨u', hunpack, hpend'⟩ := hu.issueAll_unpackAll
  rw [hvalue] at hunpack hfit
  have hdigits := digits_length_le hfit
  refine ⟨u', ?_, hpend'⟩
  have hzeros : leadingCount (· == 0) buf = zeros buf := rfl
  simp only [encodeText, Option.bind_eq_bind, Option.pure_def, hzeros, issue_init _ hpend, Option.bind_some,
    encodeRows_eq hlen, hacc, hnorm, hunpack, drop_unpacked_map_digitChar hfit, leadingCount_unpacked hfit,
    Option.some.injEq, Prod.mk.injEq, and_true]
  rw [hb] at hdigits ⊢
  rw [base58_length]
  exact ⟨rfl, by omega⟩

/-- Settles O42: the call by `encodeText_eq`, the length by `base58_length_le`, the leading `'1'`s by `ones_base58`. -/
theorem encodeGivesOrdinaryBase58 : Obligations.EncodeGivesOrdinaryBase58 := by
  intro w buf s hpend hlen
  obtain ⟨t, h, hpend'⟩ := encodeText_eq hpend hlen
  exact ⟨t, h, base58_length_le hlen, ones_base58 buf, hpend'⟩

end Sys2Proof.Machine
end

section
/-! Proofs of the decoder's statements (44_host_procedures.md R126 to R130): `decode_N` gives the documented result, and
undoes `encode_N`.

A text too long fails before any command, one with a character outside the alphabet at the first such, for what stands
before it is accumulated without a fault (`accumulateText_valid`). Otherwise the characters after the leading `'1'`s are
the digits in base 58 of the text's value, and the digits read back are its bytes. -/

namespace Sys2Proof.Machine

open Sys2Proof.Claims

/-! ### The pass over the characters (R126 steps 3 and 4) -/

/-- The decoder's table: rows of base-58 digits at `L(N)` positions, read back in bytes (R120). -/
theorem decMode_params (w : Width) : w.decMode.params.V = 58 ∧ w.decMode.params.P = w.maxText ∧
    w.decMode.params.g = 58 ∧ w.decMode.params.b = 256 ∧ w.bytes ≤ w.decMode.params.digits := by
  cases w <;> exact ⟨rfl, rfl, rfl, rfl, by decide⟩

/-- A character of the alphabet has a digit (R122). -/
theorem charDigit_lt {c : Byte} (hc : charDigit c ≠ invalidDigit) : charDigit c < 58 :=
  ((charDigit_invalid_or_inverse c).resolve_left hc).1

/-- Characters of the alphabet are accumulated, each at its position, before the rest of the text is looked at. -/
theorem accumulateText_append (w : Width) (len : Nat) {pre : List Byte} (hvalid : ∀ c ∈ pre, charDigit c ≠ invalidDigit)
    (rest : List Byte) (j : Nat) (s : State) : accumulateText w len j (pre ++ rest) s =
      (issueAll (((pre.map charDigit).zipIdx (w.maxText - len + j)).map fun q => .acc q.1 q.2) s).bind fun q =>
        accumulateText w len (j + pre.length) rest q.2 := by
  induction pre generalizing j s with
  | nil => rfl
  | cons c pre ih =>
    have ih := ih (fun c' hc' => hvalid c' (List.mem_cons_of_mem c hc')) (j + 1)
    rw [List.cons_append, accumulateText, if_neg (hvalid c List.mem_cons_self), List.map_cons, List.zipIdx_cons,
      List.map_cons, issueAll]
    cases issue (.acc (charDigit c) (w.maxText - len + j)) s with
    | none => rfl
    | some q =>
      dsimp only
      rw [ih q.2, List.length_cons, Nat.add_right_comm, ← Nat.add_assoc j, ← Nat.add_assoc (_ - _)]
      cases issueAll (((pre.map charDigit).zipIdx (w.maxText - len + j + 1)).map fun q => .acc q.1 q.2) q.2 with
      | none => rfl
      | some q' => rfl

/-- The digits of characters of the alphabet are values of the decoder's table. -/
theorem charDigits_lt {w : Width} {pre : List Byte} (hvalid : ∀ c ∈ pre, charDigit c ≠ invalidDigit) :
    ∀ d ∈ pre.map charDigit, d < w.decMode.params.V := by
  intro d hd
  obtain ⟨c, hc, rfl⟩ := List.mem_map.mp hd
  exact (decMode_params w).1 ▸ charDigit_lt (hvalid c hc)

/-- Characters of the alphabet that fit the positions are accumulated after INIT. -/
theorem accumulateText_valid {w : Width} {len j : Nat} {pre : List Byte}
    (hvalid : ∀ c ∈ pre, charDigit c ≠ invalidDigit) (hlen : len ≤ w.maxText) (hj : j + pre.length ≤ len)
    (rest : List Byte) (s : State) : ∃ t, accumulateText w len j (pre ++ rest) (afterInit w.decMode s) =
      accumulateText w len (j + pre.length) rest t ∧
      Accumulated w.decMode ((pre.map charDigit).zipIdx (w.maxText - len + j)) t := by
  have hk : w.maxText - len + j + (pre.map charDigit).length ≤ w.decMode.params.P := by
    rw [(decMode_params w).2.1, List.length_map]
    omega
  obtain ⟨_, t, hacc, ht⟩ := issueAll_digits s hk (charDigits_lt hvalid)
  exact ⟨t, by rw [accumulateText_append w len hvalid, hacc, Option.bind_some], ht⟩

/-! ### The overflow test and the bytes (R126 steps 5 to 7, R127) -/

/-- The host's overflow test (R127), with the carry-out zero: it does not fit the bytes its leading zeros leave. -/
theorem overflow_iff (N z S : Nat) : (((Nat.digits 256 S).length : Int) > (N : Int) - z) ↔
    ¬ (z ≤ N ∧ S < 256 ^ (N - z)) := by
  rw [← Nat.digits_length_le_iff (by decide)]
  omega

/-- The last `N` digits read in base 256, as bytes, are the `N` bytes of the number. -/
theorem drop_unpacked_map_setWidth (w : Width) (S : Nat) :
    ((unpacked w.decMode S).drop (w.decMode.params.digits - w.bytes)).map (fun x => x.setWidth 8) =
      bytesOf w.bytes S := by
  obtain ⟨-, -, -, hb, hN⟩ := decMode_params w
  refine List.ext_getElem (by simp [unpacked, bytesOf]; omega) fun j _ hj => ?_
  have hj : j < w.bytes := by simpa [bytesOf] using hj
  have hexp : w.decMode.params.digits - 1 - (w.decMode.params.digits - w.bytes + j) = w.bytes - 1 - j := by omega
  simp only [unpacked, bytesOf, List.getElem_map, List.getElem_drop, List.getElem_range, hexp, hb]
  refine BitVec.eq_of_toNat_eq ?_
  simp [zext64]

/-- Steps 5 to 7 of the decoder after a pass over digits up to the last position: `Overflow`, or the bytes of the
digits' number. -/
theorem finishDecode_eq {w : Width} {ds : List Nat} {k : Nat} {t : State} (z : Nat)
    (h : Accumulated w.decMode (ds.zipIdx k) t) (hk : k + ds.length = w.decMode.params.P)
    (hds : ∀ d ∈ ds, d < w.decMode.params.V) : ∃ u, u.pending = [] ∧ finishDecode w z t =
      some (if z ≤ w.bytes ∧ Nat.ofDigits 58 ds.reverse < 256 ^ (w.bytes - z)
        then .ok (bytesOf w.bytes (Nat.ofDigits 58 ds.reverse)) else .error .overflow, u) := by
  obtain ⟨-, -, hg, hb, -⟩ := decMode_params w
  obtain ⟨hfit, _, u, hnorm, hu⟩ := h.issue_norm_digits hk hds
  obtain ⟨u', hrdc, hu'⟩ := hu.issue_rdc
  obtain ⟨v, hunpack, hpend⟩ := hu'.issueAll_unpackAll
  rw [hg] at hfit hunpack
  have hlen := digits_length_le hfit
  have hzeros := leadingCount_unpacked hfit
  rw [hb] at hlen hzeros
  refine ⟨v, hpend, ?_⟩
  simp only [finishDecode, Option.bind_eq_bind, Option.pure_def, hnorm, hrdc, hunpack, Option.bind_some, hzeros,
    Nat.sub_sub_self hlen, overflow_iff, ne_eq, not_true_eq_false, false_or, drop_unpacked_map_setWidth,
    ite_not]
  split
  case isTrue => rfl
  case isFalse => rfl

/-! ### The results (R126, R127, R129) -/

/-- A text of the alphabet, no longer than `L(N)`, decodes to `Overflow` or to the bytes of its value. -/
theorem decodeText_valid {w : Width} {text : List Byte} {s : State} (hpend : s.pending = [])
    (hlen : text.length ≤ w.maxText) (hvalid : ∀ c ∈ text, charDigit c ≠ invalidDigit) :
    ∃ u, u.pending = [] ∧ decodeText w text s =
      some (if ones text ≤ w.bytes ∧ textValue text < 256 ^ (w.bytes - ones text)
        then .ok (bytesOf w.bytes (textValue text)) else .error .overflow, u) := by
  have hz : ones text ≤ text.length := leadingCount_le_length _ text
  have hbody : ∀ c ∈ text.drop (ones text), charDigit c ≠ invalidDigit := fun c hc => hvalid c (List.mem_of_mem_drop hc)
  have hbodylen : ones text + (text.drop (ones text)).length = text.length := by
    rw [List.length_drop, Nat.add_sub_cancel' hz]
  obtain ⟨t, hacc, ht⟩ := accumulateText_valid hbody hlen hbodylen.le [] s
  have hk : w.maxText - text.length + ones text + ((text.drop (ones text)).map charDigit).length =
      w.decMode.params.P := by
    rw [(decMode_params w).2.1, List.length_map, Nat.add_assoc, hbodylen, Nat.sub_add_cancel hlen]
  obtain ⟨u, hpend', hfinish⟩ := finishDecode_eq (ones text) ht hk (charDigits_lt hbody)
  have hvalue : Nat.ofDigits 58 ((text.drop (ones text)).map charDigit).reverse = textValue text :=
    ofDigits_drop_leadingCount (a := charOne) rfl 58 text
  rw [hvalue] at hfinish
  rw [List.append_nil, accumulateText] at hacc
  refine ⟨u, hpend', ?_⟩
  have hones : leadingCount (· == charOne) text = ones text := rfl
  simp only [decodeText, if_neg (Nat.not_lt.mpr hlen), Option.bind_eq_bind, issue_init _ hpend, Option.bind_some, hones,
    hacc, hfinish]

/-- A text no longer than `L(N)` with a character outside the alphabet fails at the first such. -/
theorem decodeText_invalid {w : Width} {pre rest : List Byte} {c : Byte} {s : State} (hpend : s.pending = [])
    (hlen : (pre ++ c :: rest).length ≤ w.maxText) (hvalid : ∀ c ∈ pre, charDigit c ≠ invalidDigit)
    (hc : charDigit c = invalidDigit) : ∃ u, u.pending = [] ∧
      decodeText w (pre ++ c :: rest) s = some (.error (.invalidCharacter pre.length), u) := by
  have hone : (c == charOne) = false := beq_eq_false_iff_ne.mpr (by rintro rfl; exact absurd hc (by decide))
  have hz : ones (pre ++ c :: rest) ≤ pre.length := leadingCount_append_cons_le (p := (· == charOne)) hone pre rest
  generalize hz' : ones (pre ++ c :: rest) = z at hz
  have hbody : ∀ c ∈ pre.drop z, charDigit c ≠ invalidDigit := fun c hc => hvalid c (List.mem_of_mem_drop hc)
  have hbodylen : z + (pre.drop z).length = pre.length := by rw [List.length_drop, Nat.add_sub_cancel' hz]
  obtain ⟨t, hacc, ht⟩ := accumulateText_valid hbody hlen (hbodylen.trans_le (by simp)) (c :: rest) s
  rw [accumulateText, if_pos hc, hbodylen] at hacc
  refine ⟨t, ht.pending, ?_⟩
  have hones : leadingCount (· == charOne) (pre ++ c :: rest) = z := hz'
  simp only [decodeText, if_neg (Nat.not_lt.mpr hlen), Option.bind_eq_bind, issue_init _ hpend, Option.bind_some, hones,
    List.drop_append_of_le_length hz, hacc, Option.pure_def]

/-- A text is of the alphabet, or has a first character outside it. -/
theorem valid_or_first_invalid (text : List Byte) : (∀ c ∈ text, charDigit c ≠ invalidDigit) ∨
    ∃ pre c rest, text = pre ++ c :: rest ∧ (∀ c ∈ pre, charDigit c ≠ invalidDigit) ∧ charDigit c = invalidDigit := by
  induction text with
  | nil => exact .inl nofun
  | cons a text ih =>
    by_cases ha : charDigit a = invalidDigit
    · exact .inr ⟨[], a, text, rfl, nofun, ha⟩
    · obtain hvalid | ⟨pre, c, rest, rfl, hpre, hc⟩ := ih
      · exact .inl (List.forall_mem_cons.mpr ⟨ha, hvalid⟩)
      · exact .inr ⟨a :: pre, c, rest, rfl, List.forall_mem_cons.mpr ⟨ha, hpre⟩, hc⟩

/-- Settles O43: too long before any command, else `decodeText_invalid` or `decodeText_valid`. -/
theorem decodeGivesTheDocumentedResult : Obligations.DecodeGivesTheDocumentedResult := by
  intro w text s hpend
  by_cases hlong : w.maxText < text.length
  · exact ⟨_, s, if_pos hlong, .inl ⟨hlong, rfl⟩, hpend⟩
  have hlen : text.length ≤ w.maxText := Nat.not_lt.mp hlong
  obtain hvalid | ⟨pre, c, rest, rfl, hpre, hc⟩ := valid_or_first_invalid text
  · obtain ⟨u, hpend', h⟩ := decodeText_valid hpend hlen hvalid
    refine ⟨_, u, h, ?_, hpend'⟩
    split
    case isTrue hfits => exact .inr (.inr (.inr ⟨hlen, hvalid, hfits.1, hfits.2, rfl⟩))
    case isFalse hover => exact .inr (.inr (.inl ⟨hlen, hvalid, hover, rfl⟩))
  · obtain ⟨u, hpend', h⟩ := decodeText_invalid hpend hlen hpre hc
    refine ⟨_, u, h, .inr (.inl ⟨hlen, pre.length, by simp, fun i hi => ?_, ?_, rfl⟩), hpend'⟩
    · rw [List.getD_append _ _ _ _ hi, List.getD_eq_getElem _ _ hi]
      exact hpre _ (List.getElem_mem hi)
    · rw [List.getD_append_right _ _ _ _ le_rfl, Nat.sub_self]
      exact hc

/-! ### The round trip (R130) -/

/-- The value of a buffer's text is the buffer's magnitude. -/
theorem textValue_base58 (buf : List Byte) : textValue (base58 buf) = magnitude buf := by
  have hdigits : (Nat.digits 58 (magnitude buf)).map (charDigit ∘ digitChar) = Nat.digits 58 (magnitude buf) :=
    (List.map_congr_left (g := id) fun d hd => charDigit_digitChar d (Nat.digits_lt_base (by decide) hd)).trans
      (List.map_id _)
  rw [textValue, List.map_reverse, base58, List.map_append, List.map_replicate, List.map_map,
    show charDigit 0x31 = 0 from rfl, ofDigits_reverse_replicate_zero_append, ← List.map_reverse, List.reverse_reverse,
    hdigits, Nat.ofDigits_digits]

/-- A buffer's text is of the alphabet. -/
theorem charDigit_ne_invalid_of_mem_base58 {buf : List Byte} {c : Byte} (hc : c ∈ base58 buf) :
    charDigit c ≠ invalidDigit := by
  obtain hone | hdigit := List.mem_append.mp hc
  · rw [List.eq_of_mem_replicate hone]
    decide
  · obtain ⟨d, hd, rfl⟩ := List.mem_map.mp hdigit
    have hlt : d < 58 := Nat.digits_lt_base (by decide) (List.mem_reverse.mp hd)
    rw [charDigit_digitChar d hlt, invalidDigit]
    omega

theorem magnitude_cons (c : Byte) (buf : List Byte) :
    magnitude (c :: buf) = magnitude buf + 256 ^ buf.length * c.toNat := by
  rw [magnitude, List.reverse_cons, List.map_append, Nat.ofDigits_append, List.length_map, List.length_reverse,
    List.map_singleton, Nat.ofDigits_singleton, magnitude]

/-- The bytes of a number, the first apart. -/
theorem bytesOf_succ (n v : Nat) : bytesOf (n + 1) v = BitVec.ofNat 8 (v / 256 ^ n) :: bytesOf n v := by
  rw [bytesOf, List.range_succ_eq_map, List.map_cons, List.map_map, bytesOf]
  refine congrArg₂ List.cons (by simp) (List.map_congr_left fun j _ => ?_)
  simp only [Function.comp_apply, Nat.succ_eq_add_one]
  rw [show n + 1 - 1 - (j + 1) = n - 1 - j by omega]

/-- The last `n` bytes of a number do not depend on what stands above them. -/
theorem bytesOf_add_mul_pow (n v a : Nat) : bytesOf n (v + 256 ^ n * a) = bytesOf n v := by
  refine List.map_congr_left fun j hj => BitVec.eq_of_toNat_eq ?_
  have hj := List.mem_range.mp hj
  have hpow : 256 ^ n * a = 256 ^ (n - 1 - j) * (256 * (256 ^ j * a)) := by
    rw [← mul_assoc, ← mul_assoc, ← pow_succ, ← pow_add]
    congr 2
    omega
  simp only [BitVec.toNat_ofNat]
  rw [hpow, Nat.add_mul_div_left _ _ (Nat.pow_pos (by decide))]
  exact Nat.add_mul_mod_self_left _ _ _

/-- The bytes of a buffer's magnitude are the buffer. -/
theorem bytesOf_magnitude (buf : List Byte) : bytesOf buf.length (magnitude buf) = buf := by
  induction buf with
  | nil => rfl
  | cons c buf ih =>
    rw [List.length_cons, bytesOf_succ, magnitude_cons, bytesOf_add_mul_pow, ih,
      Nat.add_mul_div_left _ _ (Nat.pow_pos (by decide)), Nat.div_eq_of_lt (magnitude_lt buf), Nat.zero_add,
      BitVec.ofNat_toNat, BitVec.setWidth_eq]

/-- Settles O44: `encodeText_eq` gives the ordinary text, which is of the alphabet, not too long, and has the buffer's
value and its leading zeros. -/
theorem decodeOfEncodeIsTheBuffer : Obligations.DecodeOfEncodeIsTheBuffer := by
  intro w buf s s' hpend hpend' hlen
  obtain ⟨t, hencode, -⟩ := encodeText_eq hpend hlen
  obtain ⟨t', -, hdecode⟩ := decodeText_valid hpend' (base58_length_le hlen) fun _ => charDigit_ne_invalid_of_mem_base58
  have hz : zeros buf ≤ w.bytes := hlen ▸ leadingCount_le_length _ buf
  have hfits : magnitude buf < 256 ^ (w.bytes - zeros buf) := hlen ▸ magnitude_lt_of_zeros buf
  rw [ones_base58, textValue_base58, if_pos ⟨hz, hfits⟩, ← hlen, bytesOf_magnitude] at hdecode
  exact ⟨_, _, t, t', hencode, hdecode⟩

end Sys2Proof.Machine
end

section
/-! Proofs of the assembly's statements (30_encoding.md R69): the example lines, and that a line read as a command is
the word of that command. -/

namespace Sys2Proof.Machine

/-- Settles O45: nine fixed lines, assembled. -/
theorem assemblyExamplesAssemble : Obligations.AssemblyExamplesAssemble := by
  unfold Obligations.AssemblyExamplesAssemble
  decide +kernel

/-- The assembler accepts no operand that does not fit its field (R69). -/
theorem wellFormed_of_parseLine {line : List Char} {i : Instr} (h : parseLine line = .ok (.command i)) :
    i.wellFormed = true := by
  unfold parseLine at h
  dsimp only at h
  split at h
  case isTrue blank => cases h
  case isFalse =>
    split at h
    case isTrue word =>
      repeat' split at h
      all_goals cases h
    case isFalse =>
      split at h
      case h_1 => cases h
      case h_2 =>
        split at h
        case h_1 => cases h
        case h_2 =>
          split at h
          case isTrue hfit =>
            cases h
            exact hfit
          case isFalse => cases h

/-- Settles O46: the line is sent as the command's word and data, which decode to it (`decodeOfEncodeIsIdentity`). -/
theorem assembledCommandsDecode : Obligations.AssembledCommandsDecode := by
  intro line i h
  have hfit := wellFormed_of_parseLine h
  exact ⟨_, _, by rw [assemble, h], hfit, decodeOfEncodeIsIdentity i hfit, wdata_of_ne_wrl⟩

end Sys2Proof.Machine
end
